-- ==== Sys2Proof/Word.lean ====
section
/-! DEFINITION. The words of LEDCORE and its colours (spec/00_scope.md R9, R13, R14, R16). Every value is unsigned (R14). -/

namespace Sys2Proof

/-- A frame-stream word or an encoder-port bus: 32 bits (R9, R73). -/
abbrev Word := BitVec 32

/-- One byte: a colour channel (R9), a stored brightness (R26), or one byte of a word. -/
abbrev Byte := BitVec 8

/-- A colour `(r, g, b)`: "three 8-bit channel values (red, green, blue), no alpha". An immutable value that is written whole (R16). -/
structure Colour where
  r : Byte
  g : Byte
  b : Byte
  deriving DecidableEq, Repr, Inhabited

end Sys2Proof
end

