-- ==== Sys2Proof/Config.lean ====
section
/-! DEFINITION. What a build fixes (spec/00_scope.md section 4) and the free values the spec leaves open (spec/93_implementation_defined.md). -/

namespace Sys2Proof

/-- `N` of this hardware: "an ordered, fixed-length sequence of `N` Color values (`N` = 12)" (R8). -/
def Config.ringSize : Nat := 12

/-- `PRIMARY` of the reference configuration (R10). DESIGN CHOICE as the value of State.reset: log entry 4. -/
def Config.primary : Colour := { r := 255, g := 0, b := 0 }

/-- `SECONDARY` of the reference configuration (R10). DESIGN CHOICE as the value of State.reset: log entry 4. -/
def Config.secondary : Colour := { r := 255, g := 0, b := 255 }

/-- `FILL` of the reference configuration (R10). DESIGN CHOICE as the value of State.reset: log entry 4. -/
def Config.fill : Colour := { r := 0, g := 255, b := 255 }

/-- `BRIGHTNESS` of the reference configuration (R10). DESIGN CHOICE as the value of State.reset: log entry 4. -/
def Config.brightness : Byte := 15

/-- `TICK_DELAY`, the host's delay in milliseconds, default 100 (R11, D18). No rule of the block reads it. -/
def Config.tickDelay : Nat := 100

/-- FREE VALUE (log entry 2): the colour that slot `slot` holds after the `draw`-th reset. The spec: "unspecified; a model draws any
value" (R33, D5). It has no body, so nothing can be proved of it. -/
opaque Config.ringDraw (draw slot : Nat) : Colour

/-- The values of `RESET_STYLE`: polarity and synchrony of the reset input (R180, D16). -/
inductive ResetStyle where
  | activeHighSync
  | activeHighAsync
  | activeLowSync
  | activeLowAsync
  deriving DecidableEq, Repr, Inhabited

/-- FREE VALUE (log entry 20): the OPEN parameter `RESET_STYLE` (D16). "No transaction-level rule depends on" it (R152), and no definition reads it. -/
opaque Config.resetStyle : ResetStyle

/-- FREE VALUE (log entry 20): the OPEN parameter `STEP_LATENCY` in cycles (R196, D24). "At transaction level it is invisible"; no definition reads it. -/
opaque Config.stepLatency : Nat

/-- `ceil(log2 n)`. -/
def Config.ceilLog2 (n : Nat) : Nat := if n ≤ 1 then 0 else Nat.log2 (n - 1) + 1

/-- `CW = ceil(log2(N))`, with a minimum of 1: the width of a register that holds the cursor (R12). -/
def Config.cursorWidth (n : Nat) : Nat := max 1 (Config.ceilLog2 n)

/-- `ceil(log2(N + 2))`: the width of the sequencer's emission index (R12). -/
def Config.indexWidth (n : Nat) : Nat := Config.ceilLog2 (n + 2)

end Sys2Proof
end

