-- ==== Sys2Proof/Syntax.lean ====
section
/-! DEFINITION. The operations of LEDCORE: the five rows of spec/opcode_table.json and of the operation map R69. -/

namespace Sys2Proof

/-- The complete set of operations the block gives meaning to (R69). -/
inductive Instr where
  /-- ENCODE, the Frame Encoder, as `encode(brightness, r, g, b)` (R74, R80). The operands are naturals: "A model may admit wider
  naturals for any operand" (R71, R80). The port's own operands are below 256 (`Instr.WellFormed`). -/
  | encode (bri r g b : Nat)
  /-- TICK: the one command; it has no operand (R64, R100). -/
  | tick
  /-- START: the start word of a transmission (R62, R88). -/
  | startWord
  /-- LED: an LED frame with its fields BRI, BLUE, GREEN, RED from high bits to low (R60, R90). Its slot is its position minus one. -/
  | led (bri : BitVec 5) (b g r : Byte)
  /-- END: the end (flush) word of a transmission (R63, R89). -/
  | endWord
  deriving DecidableEq, Repr

end Sys2Proof
end

