-- ==== Sys2Proof/WellFormed.lean ====
section
/-! DEFINITION. Which operations have an encoding on their interface (spec/30_encoding.md R60, R66, R71). -/

namespace Sys2Proof

/-- ENCODE fits the encoder port when each operand is 8 bits (R66, D10). The other operations carry only fields of their exact width.
An operation that is not well-formed still has its meaning (R71, R81); it only has no encoding of its own. -/
abbrev Instr.WellFormed : Instr → Prop
  | .encode bri r g b => bri < 256 ∧ r < 256 ∧ g < 256 ∧ b < 256
  | .tick => True
  | .startWord => True
  | .led _ _ _ _ => True
  | .endWord => True

/-- The check of `Instr.WellFormed` as a Bool. -/
def Instr.wellFormed : Instr → Bool
  | .encode bri r g b => decide (bri < 256) && decide (r < 256) && decide (g < 256) && decide (b < 256)
  | .tick => true
  | .startWord => true
  | .led _ _ _ _ => true
  | .endWord => true

/-- A ring size the spec admits: "It must then require `N >= 1`" (R8, D2). -/
abbrev Config.RingSizeOk (n : Nat) : Prop := 1 ≤ n

end Sys2Proof
end

