-- ==== Sys2Proof/Decode.lean ====
section
/-! DEFINITION. Encodings (spec/30_encoding.md): the three interfaces, the decoder, total on any bytes and refusing by name, and the
encoder. An interface's row is found by the interface and, on the frame stream, by the position in the transmission, never by value
(R67, R69, D20). The bytes of a 32-bit word are given in wire order, most significant first (R40, R41; log entry 16, DESIGN CHOICE). -/

namespace Sys2Proof

/-- Where a presented value stands: the one-bit command interface (R65), the encoder port (R66), or position `pos` of a transmission of a
ring of `n` slots (R67). -/
inductive Interface where
  | command
  | encoderPort
  | frameStream (n pos : Nat)
  deriving DecidableEq, Repr

/-- Why the decoder refuses. None of these is an exception of the block (R160): they say that the bytes are not what the interface carries. -/
inductive DecodeError where
  /-- Not one byte on the command interface, or not four on a 32-bit interface (R73). -/
  | wrongLength
  /-- `tick_valid = 0`: "no request" (R72). -/
  | noRequest
  /-- Position 0 holds a word other than `0x00000000` (R62). -/
  | notStartWord
  /-- A position 1 to N holds a word whose bits 31:29 are not `0b111` (R60). -/
  | notLedFrame
  /-- Position N + 1 holds a word other than `0xFFFFFFFF` (R63). -/
  | notEndWord
  /-- A position past N + 1: a transmission has N + 2 words (R67). -/
  | noSuchPosition
  deriving DecidableEq, Repr

/-- The start word (R62). -/
def startWordBits : Word := 0x00000000#32

/-- The end word (R63). -/
def endWordBits : Word := 0xFFFFFFFF#32

/-- The fields of an LED frame as a word: `111iiiiibbbbbbbbggggggggrrrrrrrr` (R60). -/
def ledWordBits (bri : BitVec 5) (b g r : Byte) : Word := 0b111#3 ++ bri ++ b ++ g ++ r

/-- The encoder port's input bus `{bri[7:0], b[7:0], g[7:0], r[7:0]}` (R66). A wider operand gives its low 8 bits (log entry 18, DEDUCED). -/
def encoderBus (bri r g b : Nat) : Word := BitVec.ofNat 8 bri ++ BitVec.ofNat 8 b ++ BitVec.ofNat 8 g ++ BitVec.ofNat 8 r

/-- MARK, bits 31:29 of a frame-stream word (R60). -/
def markOf (w : Word) : BitVec 3 := w.extractLsb' 29 3

/-- BRI, bits 28:24 of an LED frame (R60, R68). -/
def briOf (w : Word) : BitVec 5 := w.extractLsb' 24 5

/-- Bits 31:24: a word's byte 3 (R41), the brightness of the encoder port (R66). -/
def byte3Of (w : Word) : Byte := w.extractLsb' 24 8

/-- Bits 23:16: blue, of an LED frame (R60, R68) and of the encoder port (R66). -/
def blueOf (w : Word) : Byte := w.extractLsb' 16 8

/-- Bits 15:8: green (R60, R66, R68). -/
def greenOf (w : Word) : Byte := w.extractLsb' 8 8

/-- Bits 7:0: red (R60, R66, R68). -/
def redOf (w : Word) : Byte := w.extractLsb' 0 8

/-- The bytes of a word from most to least significant, which is wire order (R41). -/
def wordBytes (w : Word) : List Byte := [byte3Of w, blueOf w, greenOf w, redOf w]

/-- A word from its bytes in wire order; none unless there are exactly four (R73). -/
def ofWordBytes : List Byte → Option Word
  | [b3, b2, b1, b0] => some (b3 ++ b2 ++ b1 ++ b0)
  | _ => none

/-- The bits of a word in the order they go on the wire: "bit 31 goes first and bit 0 last" (R40). -/
def wireBits (w : Word) : List Bool := (List.range 32).map (fun i => w.getLsbD (31 - i))

/-- The one command: `tick_valid = 1` is TICK, `tick_valid = 0` no request (R65, R72). The interface is bit 0 of its byte; the byte's
other bits are no wires of the block (log entry 16, DESIGN CHOICE). -/
def decodeCommand (byte : Byte) : Except DecodeError Instr := if byte.getLsbD 0 then .ok .tick else .error .noRequest

/-- ENCODE from the bus: every 32-bit value is legal and none is decoded (R66, R71). -/
def decodeEncoderPort (w : Word) : Instr := .encode (byte3Of w).toNat (redOf w).toNat (greenOf w).toNat (blueOf w).toNat

/-- A frame-stream word, classified by its position in the transmission (R67). -/
def decodeFrame (n pos : Nat) (w : Word) : Except DecodeError Instr :=
  if pos = 0 then
    if w = startWordBits then .ok .startWord else .error .notStartWord
  else if pos ≤ n then
    if markOf w = 0b111#3 then .ok (.led (briOf w) (blueOf w) (greenOf w) (redOf w)) else .error .notLedFrame
  else if pos = n + 1 then
    if w = endWordBits then .ok .endWord else .error .notEndWord
  else .error .noSuchPosition

/-- The decoder: total on any bytes at any interface. -/
def decode (iface : Interface) (bytes : List Byte) : Except DecodeError Instr :=
  match iface with
  | .command =>
    match bytes with
    | [byte] => decodeCommand byte
    | _ => .error .wrongLength
  | .encoderPort =>
    match ofWordBytes bytes with
    | some w => .ok (decodeEncoderPort w)
    | none => .error .wrongLength
  | .frameStream n pos =>
    match ofWordBytes bytes with
    | some w => decodeFrame n pos w
    | none => .error .wrongLength

/-- The bytes of an operation on its interface, written from the encodings R60, R62, R63, R65 and R66. -/
def encode : Instr → List Byte
  | .encode bri r g b => wordBytes (encoderBus bri r g b)
  | .tick => [0x01#8]
  | .startWord => wordBytes startWordBits
  | .led bri b g r => wordBytes (ledWordBits bri b g r)
  | .endWord => wordBytes endWordBits

/-- Which operation an interface carries: the last two columns of R69 with the positions of R67. -/
abbrev Interface.Carries : Interface → Instr → Prop
  | .encoderPort, .encode _ _ _ _ => True
  | .command, .tick => True
  | .frameStream _ pos, .startWord => pos = 0
  | .frameStream n pos, .led _ _ _ _ => 1 ≤ pos ∧ pos ≤ n
  | .frameStream n pos, .endWord => pos = n + 1
  | _, _ => False

/-- The interface on which the host's question about a table word is read (log entry 11, DESIGN CHOICE). Up to one byte it is the command interface. A 32-bit
word alone does not say where it stands, since the rows overlap (R69): a word that the frame stream can carry is read at the first position
that carries it, and any other word, which the block never emits (R70), at the encoder port. DESIGN CHOICE. -/
def tableInterface (nbits w : Nat) : Interface :=
  if nbits ≤ 8 then .command
  else if BitVec.ofNat 32 w = startWordBits then .frameStream Config.ringSize 0
  else if BitVec.ofNat 32 w = endWordBits then .frameStream Config.ringSize (Config.ringSize + 1)
  else if markOf (BitVec.ofNat 32 w) = 0b111#3 then .frameStream Config.ringSize 1
  else .encoderPort

/-- The bytes of a table word at that interface. -/
def tableBytes (nbits w : Nat) : List Byte :=
  if nbits ≤ 8 then [BitVec.ofNat 8 w] else wordBytes (BitVec.ofNat 32 w)

/-- What the decoder reads from a table word `w` of `nbits` bits; none where it refuses. -/
def decodeTableWord (nbits w : Nat) : Option Instr :=
  match decode (tableInterface nbits w) (tableBytes nbits w) with
  | .ok i => some i
  | .error _ => none

end Sys2Proof
end

