-- ==== Sys2Proof/Machine/State.lean ====
section
/-! DEFINITION. The state of LEDCORE (spec/10_state.md), of its two partners as far as the block and an observer see them, the reasons a
step can stop, and the state after reset. -/

namespace Sys2Proof.Machine

/-- The sequencer phase `seq` (R23): IDLE, or EMIT(k), in which word `k` of the transmission is offered. The spec's range is `k ≤ N + 1`. -/
inductive Phase where
  | idle
  | emit (k : Nat)
  deriving DecidableEq, Repr

/-- How far the initialisation collaborator is (R147, R186): not yet run, succeeded, or failed, which is fatal (R167). -/
inductive InitStatus where
  | pending
  | succeeded
  | failed
  deriving DecidableEq, Repr

/-- What an agent does next (R17, R163; log entry 1, DESIGN CHOICE). One step of the machine consumes one event. -/
inductive Event where
  /-- The block takes the transition of R109 that the levels on its interfaces enable, if any. -/
  | advance
  /-- The host requests a tick (R64, R65). -/
  | requestTick
  /-- The host drives `enc_in` (R66). -/
  | driveEncoder (w : Word)
  /-- The sink drives `frame_ready` (R152). -/
  | sinkReady (ready : Bool)
  /-- The host asserts reset and releases it (R180). If the sink is taking a word on that edge, `taken` says whether that word counts as
  accepted, which "is up to the sink" (R163; log entry 14, DEDUCED). -/
  | reset (taken : Bool)
  /-- The initialisation collaborator ends, with success or with the fatal failure of R167 (R147, R186). -/
  | initialise (ok : Bool)
  /-- The host's delay of `ms` milliseconds (R74, R148). -/
  | wait (ms : Nat)
  deriving DecidableEq, Repr

/-- The whole state. R20 lists the block's own: ring, cursor, sequencer phase and the configuration constants. The rest is the levels the
other agents hold on the block's interfaces, the observation of R18 and the model's own schedule. -/
structure State where
  /-- `N`, the ring size: a configuration constant, 12 for this hardware (R8). -/
  ringSize : Nat
  /-- The colour ring, slot 0 first (R21). -/
  ring : List Colour
  /-- The cursor, "an integer in `[0, N)`" (R22). -/
  cursor : Nat
  /-- The sequencer phase (R23). -/
  seq : Phase
  /-- `PRIMARY` (R25). -/
  primary : Colour
  /-- `SECONDARY` (R25). -/
  secondary : Colour
  /-- `FILL` (R25). -/
  fill : Colour
  /-- `BRIGHTNESS`, 8 bits stored, the low 5 used (R26). -/
  brightness : Byte
  /-- `tick_valid`: a tick request is held on the command interface (R65; log entry 8, DEDUCED). -/
  tickValid : Bool
  /-- `frame_ready`: the sink takes the word it is offered (R152). -/
  frameReady : Bool
  /-- `enc_in`, the encoder port's input bus (R66). -/
  encIn : Word
  /-- The initialisation collaborator (R147). The block itself does not read it (R186). -/
  init : InitStatus
  /-- The words the sink has accepted, in acceptance order, oldest first: the observation of R18 (log entry 17, DESIGN CHOICE). -/
  accepted : List Word
  /-- What the agents do next, the next one first (log entry 1, DESIGN CHOICE). When it is empty the block goes on with the levels as they stand. -/
  events : List Event
  /-- How many free ring values have been drawn, the next reset's draw (log entry 2, DESIGN CHOICE). -/
  draws : Nat
  deriving DecidableEq, Repr

/-- The block raises no exception and has no fault bit and no error output (R160), so no step faults: the type has no constructor. -/
inductive Fault where
  deriving DecidableEq, Repr

/-- Why the model gives a step no meaning. -/
inductive Refusal where
  /-- Raised by an arm of exec whose instruction has no meaning yet. Safe. No arm does. -/
  | notModelled (mnemonic : String)
  /-- Raised by `step` and by TICK when `N = 0`: "an index taken modulo 0 has no meaning. A model with `N = 0` is refused" (R8, D2). Safe. -/
  | emptyRing
  /-- Raised by `step` when the host requests a tick before initialisation has succeeded: "a launch this spec says nothing of" (R186), which
  spec/93_implementation_defined.md treats as `refuse` at the host. The spec says that it errs toward proving: unsafe (log entry 12, DESIGN CHOICE). -/
  | tickBeforeInitialisation
  /-- Raised by `step` when what is presented does not decode. It happens only at a sequencer value outside R23 or a ring whose length is not
  N, which no run reaches (log entry 15, DESIGN CHOICE). Safe. -/
  | undecodable (e : DecodeError)
  deriving DecidableEq, Repr

/-- The ring as the `draw`-th reset leaves it: "unspecified; a model draws any value" (R33; log entry 2, DESIGN CHOICE). -/
def drawnRing (n draw : Nat) : List Colour := (List.range n).map (Config.ringDraw draw)

/-- The machine right after reset (R33, R180) in the reference configuration (log entry 4, DESIGN CHOICE), before the host has done anything (R185). The
levels of the inputs are log entry 6, DESIGN CHOICE, the cursor's 0 is the spec's own decision D4 (log entry 3, UNVERIFIED). -/
def State.reset : State where
  ringSize := Config.ringSize
  ring := drawnRing Config.ringSize 0
  cursor := 0
  seq := .idle
  primary := Config.primary
  secondary := Config.secondary
  fill := Config.fill
  brightness := Config.brightness
  tickValid := false
  frameReady := false
  encIn := 0
  init := .pending
  accepted := []
  events := []
  draws := 1

end Sys2Proof.Machine
end

