-- ==== Sys2Proof/Machine/Flags.lean ====
section
/-! DEFINITION. The status outputs of LEDCORE. "The block has no status flags, condition codes or predicates" (R28): the outputs below are
functions of `seq`, no state. -/

namespace Sys2Proof.Machine

/-- `busy = (seq ≠ IDLE)` (R28). -/
def State.busy (s : State) : Bool := decide (s.seq ≠ .idle)

/-- `tick_ready = not busy` (R28, R65). -/
def State.tickReady (s : State) : Bool := !s.busy

/-- `frame_valid`: 1 "exactly when `seq = EMIT(k)` for some `k`" (R152). -/
def State.frameValid (s : State) : Bool :=
  match s.seq with
  | .idle => false
  | .emit _ => true

end Sys2Proof.Machine
end

