-- ==== Sys2Proof/Machine/Operands.lean ====
section
/-! DEFINITION. Operand forms and the arithmetic of LEDCORE: the mathematical modulo of ring indices (R14, R118), the storage layout of a
colour (R27), the Frame Encoder's function (R80) and the word function of a transmission (R108). -/

namespace Sys2Proof.Machine

/-- `a mod n` for an integer `a`: "the mathematical modulo, always in `[0, n)`", never the truncating remainder (R14, R118). -/
def wrapIndex (n : Nat) (a : Int) : Nat := (a % (n : Int)).toNat

/-- `stored24(r, g, b) = {b, g, r}` (R27). -/
def stored24 (c : Colour) : BitVec 24 := c.b ++ c.g ++ c.r

/-- The colour that 24 stored bits hold (R27). -/
def ofStored24 (v : BitVec 24) : Colour := { r := v.extractLsb' 0 8, g := v.extractLsb' 8 8, b := v.extractLsb' 16 8 }

/-- `Encode(bri, (r, g, b))`, the Frame Encoder, total on all naturals (R80, R81): brightness and channels are masked, not clamped (C1). -/
def encodeFrame (bri r g b : Nat) : Word :=
  0b111#3 ++ BitVec.ofNat 5 (bri &&& 0x1F) ++ BitVec.ofNat 8 (b &&& 0xFF) ++ BitVec.ofNat 8 (g &&& 0xFF) ++ BitVec.ofNat 8 (r &&& 0xFF)

/-- `Encode(bri, c)` for a stored brightness and a colour (R80, R90). -/
def encodeColour (bri : Byte) (c : Colour) : Word := encodeFrame bri.toNat c.r.toNat c.g.toNat c.b.toNat

/-- `enc_frame`, the encoder port's output: `Encode(enc_in[31:24], (enc_in[7:0], enc_in[15:8], enc_in[23:16]))` at all times (R66, R91). -/
def State.encFrame (s : State) : Word :=
  encodeFrame (byte3Of s.encIn).toNat (redOf s.encIn).toNat (greenOf s.encIn).toNat (blueOf s.encIn).toNat

/-- `word(k)` of the transmission (R108): the start word, the LED frame of slot `k - 1`, or the end word; none for `k > N + 1`. -/
def State.word (s : State) (k : Nat) : Option Word :=
  if k = 0 then some startWordBits
  else if k = s.ringSize + 1 then some endWordBits
  else if k ≤ s.ringSize then s.ring[k - 1]?.map (encodeColour s.brightness)
  else none

/-- The offered word, `frame_data` while `frame_valid = 1` (R24, R152): `word(k)` in EMIT(k), none in IDLE. -/
def State.offered (s : State) : Option Word :=
  match s.seq with
  | .idle => none
  | .emit k => s.word k

end Sys2Proof.Machine
end

