-- ==== Sys2Proof/Machine/Ops.lean ====
section
/-! DEFINITION. The named operations of LEDCORE over the ring, the sequencer and the sink, and reset. There is no byte memory (R46) and
"no trap entry" and "no return-from-trap" (R164, R165), so no operation here reads memory, takes an exception or returns from one. -/

namespace Sys2Proof.Machine

/-- `ring[i] <- c`: a ring write replaces the whole colour (R15, R44). -/
def State.setSlot (s : State) (i : Nat) (c : Colour) : State := { s with ring := s.ring.set i c }

/-- Where `seq` goes when `word(k)` is accepted: EMIT(k + 1) for `k ≤ N`, IDLE after the end word (R23, R109). -/
def nextPhase (n k : Nat) : Phase := if k ≤ n then .emit (k + 1) else .idle

/-- `Submit(w)` in phase EMIT(k) (R140): if `w` is the word offered there and the sink is ready, it is accepted and `seq` moves on. While the
sink is not ready the block holds (R144). A word that is not offered cannot be accepted (R151), and then nothing happens (log entry 10, DEDUCED). -/
def State.submit (s : State) (k : Nat) (w : Word) : State :=
  if s.seq = .emit k ∧ s.offered = some w ∧ s.frameReady = true then
    { s with accepted := s.accepted ++ [w], seq := nextPhase s.ringSize k }
  else s

/-- The word, if any, that the sink takes on the edge of a reset: the offered one, if the sink is ready and `taken` says so (R163). -/
def State.takenOnReset (s : State) (taken : Bool) : List Word := if taken && s.frameReady then s.offered.toList else []

/-- Reset (R180, R181): the reset state of R33, with a freshly drawn ring. The configuration constants keep "the configured value". Accepted
words stay accepted. The levels the host and the sink drive are theirs and stay (log entry 7, DEDUCED). -/
def State.resetBlock (s : State) (taken : Bool) : State :=
  { s with
    ring := drawnRing s.ringSize s.draws
    cursor := 0
    seq := .idle
    accepted := s.accepted ++ s.takenOnReset taken
    draws := s.draws + 1 }

/-- The initialisation collaborator ends. It is "consumed once before the tick loop starts" (R147) and its failure has "no recovery, no
retry" (R167): only a pending one can end (log entry 13, DEDUCED). -/
def State.endInit (s : State) (ok : Bool) : State :=
  match s.init with
  | .pending => { s with init := if ok then .succeeded else .failed }
  | .succeeded => s
  | .failed => s

/-- The next event is consumed. -/
def State.consumeEvent (s : State) : State := { s with events := s.events.tail }

end Sys2Proof.Machine
end

