-- ==== Sys2Proof/Machine/Animator.lean ====
section
/-! DEFINITION. The Animator's operation, TICK, and its steps 1 to 4 (spec/41_animator.md). Step 5 is the transmission: the operations of
FrameWords.lean, one for each accepted word (R107, R109). -/

namespace Sys2Proof.Machine

/-- Step 1, FILL: `ring[i] <- FILL` for every `i` in `[0, N)` (R101). -/
def State.fillRing (s : State) : State := { s with ring := List.replicate s.ringSize s.fill }

/-- Step 2, PRIMARY: `ring[c] <- PRIMARY` (R102). -/
def State.paintPrimary (s : State) (c : Nat) : State := s.setSlot c s.primary

/-- Step 3, SECONDARY: the four writes of R103, in its order. -/
def State.paintSecondary (s : State) (c : Nat) : State :=
  (((s.setSlot (wrapIndex s.ringSize (c + 1)) s.secondary).setSlot (wrapIndex s.ringSize (c + 2)) s.secondary).setSlot
    (wrapIndex s.ringSize (c - 1)) s.secondary).setSlot (wrapIndex s.ringSize (c - 2)) s.secondary

/-- Step 4, ADVANCE: `cursor <- (c + 1) mod N` (R106). -/
def State.advanceCursor (s : State) (c : Nat) : State := { s with cursor := wrapIndex s.ringSize (c + 1) }

/-- Steps 1 to 4 in order, with `c` the cursor at the start of the tick (R100). No special case for small rings: the last write wins (R104). -/
def State.updateRing (s : State) : State :=
  (((s.fillRing).paintPrimary s.cursor).paintSecondary s.cursor).advanceCursor s.cursor

/-- An accepted tick request: steps 1 to 4 "as one atomic transition", then EMIT(0) (R109). The request is no longer held (R65; log entry 9, DESIGN CHOICE). -/
def State.beginTick (s : State) : State := { s.updateRing with seq := .emit 0, tickValid := false }

/-- TICK (R100): accepted only in IDLE; "A request at any other time waits", held on the command interface (R65, R161). -/
def execTick (s : State) : Host.Outcome State Fault Refusal :=
  if s.ringSize = 0 then .refused .emptyRing
  else if s.tickReady then .next s.beginTick
  else .next { s with tickValid := true }

end Sys2Proof.Machine
end

