-- ==== Sys2Proof/Machine/Encoder.lean ====
section
/-! DEFINITION. The Frame Encoder's operation, ENCODE (spec/40_frame_encoder.md section 1). -/

namespace Sys2Proof.Machine

/-- ENCODE (R80, R91): the host applies `enc_in = {bri, b, g, r}` and reads `enc_frame`, which is `State.encFrame` of the next state (R74).
"Driving `enc_in` never changes `ring`, `cursor`, `seq` or the frame stream". It never faults, stalls or refuses (R81). See log entry 22, DEDUCED. -/
def execEncode (bri r g b : Nat) (s : State) : Host.Outcome State Fault Refusal := .next { s with encIn := encoderBus bri r g b }

end Sys2Proof.Machine
end

