-- ==== Sys2Proof/Machine/FrameWords.lean ====
section
/-! DEFINITION. The frame words of a transmission, START, LED and END (spec/40_frame_encoder.md section 2). Each is `Submit` of its word in
its own phase; the sink's acceptance moves `seq` on. -/

namespace Sys2Proof.Machine

/-- START (R88): "in phase `EMIT(0)`: `Submit(0x00000000)`; on acceptance `seq <- EMIT(1)`". -/
def execStart (s : State) : Host.Outcome State Fault Refusal := .next (s.submit 0 startWordBits)

/-- LED (R90): "in phase `EMIT(j+1)`: `Submit(Encode(BRIGHTNESS, ring[j]))`; on acceptance `seq <- EMIT(j+2)`". The fields are those of
the frame; it is accepted where it is the frame of the slot that the phase names. -/
def execLed (bri : BitVec 5) (b g r : Byte) (s : State) : Host.Outcome State Fault Refusal :=
  match s.seq with
  | .idle => .next s
  | .emit k => if 1 ≤ k ∧ k ≤ s.ringSize then .next (s.submit k (ledWordBits bri b g r)) else .next s

/-- END (R89): "in phase `EMIT(N+1)`: `Submit(0xFFFFFFFF)`; on acceptance `seq <- IDLE`, and the tick is complete". -/
def execEnd (s : State) : Host.Outcome State Fault Refusal := .next (s.submit (s.ringSize + 1) endWordBits)

end Sys2Proof.Machine
end

