-- ==== Sys2Proof/Machine/Dispatch.lean ====
section
/-! DEFINITION. exec: one arm for each operation of spec/opcode_table.json. -/

namespace Sys2Proof.Machine

def exec (i : Instr) (s : State) : Host.Outcome State Fault Refusal :=
  match i with
  | .encode bri r g b => Sys2Proof.Machine.execEncode bri r g b s
  | .tick => Sys2Proof.Machine.execTick s
  | .startWord => Sys2Proof.Machine.execStart s
  | .led bri b g r => Sys2Proof.Machine.execLed bri b g r s
  | .endWord => Sys2Proof.Machine.execEnd s

end Sys2Proof.Machine
end

