-- ==== Sys2Proof/Machine/Fetch.lean ====
section
/-! DEFINITION. What the next step is. The block "fetches no instructions and holds no program" (R52): an operation is presented on an
interface, by the host (command, encoder port) or by the block's own sequencer (frame stream), and is decoded there. -/

namespace Sys2Proof.Machine

/-- One move of an agent. -/
inductive Move where
  /-- An operation is presented on an interface. -/
  | present (iface : Interface) (bytes : List Byte)
  /-- Nothing is enabled: the block holds (R109, R144), or the host waits (R148). -/
  | hold
  /-- The sink drives `frame_ready` (R152). -/
  | sinkReady (ready : Bool)
  /-- Reset (R180). -/
  | reset (taken : Bool)
  /-- The initialisation collaborator ends (R147). -/
  | endInit (ok : Bool)
  /-- A request before initialisation has succeeded (R186). -/
  | earlyTick
  deriving DecidableEq, Repr

/-- The bytes of the offered word, none if no word is offered. -/
def State.offeredBytes (s : State) : List Byte :=
  match s.offered with
  | some w => wordBytes w
  | none => []

/-- The block's own move (R109): in IDLE a held request is presented; in EMIT(k) with the sink ready, `word(k)` at position `k` (R67).
Otherwise the block holds. -/
def State.blockMove (s : State) : Move :=
  match s.seq with
  | .idle => if s.tickValid then .present .command [0x01#8] else .hold
  | .emit k => if s.frameReady then .present (.frameStream s.ringSize k) s.offeredBytes else .hold

/-- The move of one event. -/
def State.eventMove (s : State) : Event → Move
  | .advance => s.blockMove
  | .requestTick => if s.init = .succeeded then .present .command [0x01#8] else .earlyTick
  | .driveEncoder w => .present .encoderPort (wordBytes w)
  | .sinkReady ready => .sinkReady ready
  | .reset taken => .reset taken
  | .initialise ok => .endInit ok
  | .wait _ => .hold

/-- The next move: that of the next event, or the block's own when no event is listed. -/
def State.nextMove (s : State) : Move :=
  match s.events with
  | [] => s.blockMove
  | e :: _ => s.eventMove e

/-- What a move does. An operation is decoded where it is presented and executed. -/
def perform (m : Move) (s : State) : Host.Outcome State Fault Refusal :=
  match m with
  | .present iface bytes =>
    match decode iface bytes with
    | .ok i => exec i s
    | .error e => .refused (.undecodable e)
  | .hold => .next s
  | .sinkReady ready => .next { s with frameReady := ready }
  | .reset taken => .next (s.resetBlock taken)
  | .endInit ok => .next (s.endInit ok)
  | .earlyTick => .refused .tickBeforeInitialisation

/-- `s` with a ring that has a slot, which every step needs (R8). -/
def State.withSlot (s : State) : State := { s with ringSize := max 1 s.ringSize }

/-- The events of `s` with the block's own move next. With no event listed it is next anyway. -/
def State.blockMovesNext (s : State) : List Event :=
  match s.events with
  | [] => []
  | e :: es => .advance :: e :: es

/-- `s` with the table word `w` of `nbits` bits presented where the next step takes it (log entries 11 and 19): a request held in IDLE; the
encoder's bus driven next; or the sequencer at the word's position with the sink ready and, for an LED frame, slot 0 and BRIGHTNESS such that
the block offers exactly that frame. -/
def State.presentWord (s : State) (nbits w : Nat) : State :=
  match tableInterface nbits w with
  | .command =>
    { s.withSlot with
      seq := .idle
      tickValid := (BitVec.ofNat 8 w).getLsbD 0
      init := .succeeded
      events := s.blockMovesNext }
  | .encoderPort => { s.withSlot with events := .driveEncoder (BitVec.ofNat 32 w) :: s.events }
  | .frameStream n pos =>
    if pos = 0 then { s.withSlot with seq := .emit 0, frameReady := true, init := .succeeded, events := s.blockMovesNext }
    else if pos ≤ n then
      { s.withSlot with
        ring := { r := redOf (BitVec.ofNat 32 w), g := greenOf (BitVec.ofNat 32 w), b := blueOf (BitVec.ofNat 32 w) } :: s.ring.tail
        brightness := (briOf (BitVec.ofNat 32 w)).setWidth 8
        seq := .emit 1
        frameReady := true
        init := .succeeded
        events := s.blockMovesNext }
    else
      { s.withSlot with seq := .emit (max 1 s.ringSize + 1), frameReady := true, init := .succeeded, events := s.blockMovesNext }

end Sys2Proof.Machine
end

