-- ==== Sys2Proof/Machine/Step.lean ====
section
/-! DEFINITION. One step of the machine: one move of one agent. "The model has no time: it orders events" (R196). -/

namespace Sys2Proof.Machine

/-- One step: the next move, taken after its event is consumed. A model with `N = 0` is refused (R8). -/
def step (s : State) : Host.Outcome State Fault Refusal :=
  if s.ringSize = 0 then .refused .emptyRing else perform s.nextMove s.consumeEvent

/-- `s` with a table word presented so that the very next step executes it (log entry 19, DESIGN CHOICE). -/
def State.withFetchWord (s : State) (nbits w : Nat) : State := s.presentWord nbits w

end Sys2Proof.Machine
end

