-- ==== Sys2Proof/Machine/Script.lean ====
section
/-! DEFINITION. The host-script notation of spec/30_encoding.md R74 as moves of the agents. Two readings are the model's own (log entry 21,
DESIGN CHOICE): the sink is ready at every move of the block, and RESET carries what R163 leaves to the sink. -/

namespace Sys2Proof.Machine

/-- The commands of the host-script notation (R74). `tick k` is `TICK k`. `run k` is the first `k` rounds of `RUN`, which repeats forever.
`reset taken` is `RESET`. The notation does not say whether a word that the sink is taking on that edge counts as accepted, and R163 leaves it to
the sink and admits both outcomes (D25): `taken` says which, so that the script has both (log entries 14 and 21, DESIGN CHOICE). -/
inductive HostCommand where
  | reset (taken : Bool)
  | tick (k : Nat)
  | encode (bri r g b : Nat)
  | wait (ms : Nat)
  | run (k : Nat)
  deriving DecidableEq, Repr

/-- TICK: "request one tick and wait for `tick_ready` to return to 1" (R74): the request, then one move of the block for each of the `N + 2`
words of the transmission. -/
def tickEvents (n : Nat) : List Event := .requestTick :: List.replicate (n + 2) .advance

/-- `k` copies of a list of moves, one after the other. -/
def repeatEvents : Nat → List Event → List Event
  | 0, _ => []
  | k + 1, es => es ++ repeatEvents k es

/-- A command's moves for a ring of `n` slots (R74). RESET is one reset event, with the outcome its flag names (R163, log entry 21). -/
def HostCommand.events (n : Nat) : HostCommand → List Event
  | .reset taken => [.reset taken]
  | .tick k => repeatEvents k (tickEvents n)
  | .encode bri r g b => [.driveEncoder (encoderBus bri r g b)]
  | .wait ms => [.wait ms]
  | .run k => repeatEvents k (tickEvents n ++ [.wait Config.tickDelay])

end Sys2Proof.Machine
end

