-- ==== Sys2Proof/Safety.lean ====
section
/-! DEFINITION. What counts as a legal state and a legal stream of words, and the closed forms that claims are stated with
(spec/10_state.md R31, spec/30_encoding.md R67, spec/41_animator.md R105, R116, spec/42_frame_sink.md R149, spec/70_reset_and_hazards.md R181,
R186). -/

namespace Sys2Proof.Machine

/-- How many words of the running transmission have been accepted: `k` in EMIT(k), none in IDLE. -/
def State.sentCount (s : State) : Nat :=
  match s.seq with
  | .idle => 0
  | .emit k => k

/-- `seq ∈ {IDLE} ∪ {EMIT(k) : 0 <= k <= N + 1}` (R31). -/
abbrev State.PhaseInRange (s : State) : Prop := s.sentCount ≤ s.ringSize + 1

/-- The state invariants of R31: `N >= 1` (R8), "exactly `N` colors exist in the ring state; the cursor is always a valid index into it", and
the phase is in its range. The third invariant of R31, masked brightness, is the encoder's and not the state's. -/
abbrev State.Wf (s : State) : Prop :=
  1 ≤ s.ringSize ∧ s.ring.length = s.ringSize ∧ s.cursor < s.ringSize ∧ s.PhaseInRange

/-- Before initialisation has succeeded no tick is requested or running and no word has been submitted (R147, R186). -/
abbrev State.InitFirst (s : State) : Prop :=
  s.init = .succeeded ∨ (s.seq = .idle ∧ s.tickValid = false ∧ s.accepted = [])

/-- In EMIT(k) the last `k` words the sink accepted are `word(0)` to `word(k - 1)` of this transmission, in order (R48, R107). -/
abbrev State.SentSoFar (s : State) : Prop :=
  (s.accepted.drop (s.accepted.length - s.sentCount)).map some = (List.range s.sentCount).map s.word

/-- A word that may stand at position `i` of a transmission of `n` slots (R67): START, an LED frame, or END. -/
abbrev FrameAt (n i : Nat) (w : Word) : Prop :=
  if i = 0 then w = startWordBits else if i ≤ n then markOf w = 0b111#3 else w = endWordBits

/-- A list of words that a transmission of `n` slots can start with: the whole of it when there are `n + 2` (R67). -/
abbrev TransmissionStart (n : Nat) (ws : List Word) : Prop :=
  ws.length ≤ n + 2 ∧ ∀ i : Fin ws.length, FrameAt n i ws[i]

/-- The grammar of the accepted words (R67, R181): a concatenation of transmissions, of which at most one for each reset is cut short,
followed by the accepted words of the running one. -/
def State.StreamOk (s : State) : Prop :=
  ∃ (done : List (List Word)) (running : List Word),
    s.accepted = done.flatten ++ running ∧
    (∀ t ∈ done, TransmissionStart s.ringSize t) ∧
    (done.filter (fun t => decide (t.length < s.ringSize + 2))).length ≤ s.draws ∧
    TransmissionStart s.ringSize running ∧
    running.length = s.sentCount

/-- The sink takes the offered word `w` at the next step: a word is offered, `frame_ready = 1` (R151, R152), and the move is the block's own. -/
abbrev State.SinkTakes (s : State) (w : Word) : Prop :=
  s.offered = some w ∧ s.frameReady = true ∧ (s.events.head? = none ∨ s.events.head? = some .advance)

/-- The fairness assumption on the sink: "the sink eventually accepts each offered word" (R149). Whenever a word is offered in the run from `s`,
after finitely many steps, in which it stays offered in its phase, the sink takes it, unless a reset withdraws it there (R142). A finite stall of
any length is fair. The form is the model's (log entry 23, DEDUCED). -/
def State.SinkFair (s : State) : Prop :=
  ∀ (m : Nat) (t : State) (w : Word), Host.Core.run Sys2Proof.core m s = .next t → t.offered = some w →
    ∃ (n : Nat) (u : State), Host.Core.run Sys2Proof.core n t = .next u ∧ u.seq = t.seq ∧
      (u.SinkTakes w ∨ ∃ taken : Bool, u.events.head? = some (.reset taken))

/-- The level of `frame_ready` after the events, from the level `ready` before them (R152). -/
def readyAfter (ready : Bool) : List Event → Bool
  | [] => ready
  | .sinkReady r :: es => readyAfter r es
  | .advance :: es => readyAfter ready es
  | .requestTick :: es => readyAfter ready es
  | .driveEncoder _ :: es => readyAfter ready es
  | .reset _ :: es => readyAfter ready es
  | .initialise _ :: es => readyAfter ready es
  | .wait _ :: es => readyAfter ready es

/-- The listed events leave the sink ready, however long they stall it before (R143, R149). -/
abbrev State.SinkEndsReady (s : State) : Prop := readyAfter s.frameReady s.events = true

/-- `S(c)` of R105 for a ring of `n` slots, with the non-negative index form of R118. -/
def secondarySlots (n c : Nat) : List Nat := [(c + 1) % n, (c + 2) % n, (c + 2 * n - 1) % n, (c + 2 * n - 2) % n]

/-- The colour of slot `i` after a tick that starts at cursor `c` (R105). -/
def State.patternColour (s : State) (c i : Nat) : Colour :=
  if i ∈ secondarySlots s.ringSize c then s.secondary else if i = c then s.primary else s.fill

/-- The ring after a tick that starts at cursor `c`, in the closed form of R105. -/
def State.pattern (s : State) (c : Nat) : List Colour := (List.range s.ringSize).map (s.patternColour c)

/-- The `N + 2` words of a tick that starts at cursor `c` (R107, R116). -/
def State.transmission (s : State) (c : Nat) : List Word :=
  startWordBits :: ((s.pattern c).map (encodeColour s.brightness) ++ [endWordBits])

end Sys2Proof.Machine
end

