-- ==== Sys2Proof/Certificates/Slice0/Obligations.lean ====
section
/-! DEFINITION. The statements about LEDCORE. Each docstring names the rule of spec/ it formalises. -/

section
open Sys2Proof Sys2Proof.Machine

/-! ## Encodings -/

/-- R69, R60, R62, R63, R65, R66: words written out from the encodings (E3, K1, K3 and the corrected W1 of spec/95_test_vectors.md) decode to
their operation, and three words that an interface does not carry are refused by name (R62, R70, R72). -/
def Obligations.WrittenOutWordsDecode : Prop :=
  decode .encoderPort [0b00001111#8, 0b10000000#8, 0b00000000#8, 0b11111111#8] = .ok (.encode 15 255 0 128) ∧
  decode .command [0b00000001#8] = .ok .tick ∧
  decode (.frameStream 12 0) [0b00000000#8, 0b00000000#8, 0b00000000#8, 0b00000000#8] = .ok .startWord ∧
  decode (.frameStream 12 5) [0b11101111#8, 0b10000000#8, 0b00000000#8, 0b11111111#8] =
    .ok (.led 0b01111#5 0b10000000#8 0b00000000#8 0b11111111#8) ∧
  decode (.frameStream 12 13) [0b11111111#8, 0b11111111#8, 0b11111111#8, 0b11111111#8] = .ok .endWord ∧
  decode .command [0b00000000#8] = .error .noRequest ∧
  decode (.frameStream 12 0) [0b11100000#8, 0b00000000#8, 0b00000000#8, 0b00000000#8] = .error .notStartWord ∧
  decode (.frameStream 12 1) [0b10001111#8, 0b10000000#8, 0b00000000#8, 0b11111111#8] = .error .notLedFrame

/-- Decode inverts encode for every operation, at every interface that carries it and with every operand the encoding admits (R60 to R69). -/
def Obligations.DecodeInvertsEncode : Prop :=
  ∀ (iface : Interface) (i : Instr), i.WellFormed → iface.Carries i → decode iface (encode i) = .ok i

/-- What decodes is a well-formed operation that the interface carries, and on the 32-bit interfaces its bytes are the operation's own. (The
command interface is one bit of its byte: log entry 16.) -/
def Obligations.EncodeInvertsDecode : Prop :=
  ∀ (iface : Interface) (bytes : List Byte) (i : Instr), decode iface bytes = .ok i →
    i.WellFormed ∧ iface.Carries i ∧ (iface ≠ .command → encode i = bytes)

/-- R67, R63: position decides, not value. All ones is the LED frame of white at brightness 31 at positions 1 to N and END at position N + 1; all
zeros decodes at position 0 only. -/
def Obligations.ClassifiedByPosition : Prop :=
  (∀ n pos : Nat, 1 ≤ pos → pos ≤ n →
    decode (.frameStream n pos) [0xFF#8, 0xFF#8, 0xFF#8, 0xFF#8] = .ok (.led 31#5 0xFF#8 0xFF#8 0xFF#8)) ∧
  (∀ n : Nat, decode (.frameStream n (n + 1)) [0xFF#8, 0xFF#8, 0xFF#8, 0xFF#8] = .ok .endWord) ∧
  (∀ (n pos : Nat) (i : Instr), decode (.frameStream n pos) [0#8, 0#8, 0#8, 0#8] = .ok i ↔ (pos = 0 ∧ i = .startWord))

/-- R41, with R40's order of bits: the bytes of an LED frame in wire order are `{0b111, brightness[4:0]}`, blue, green, red, and the bits of any
word go most significant first, byte by byte. -/
def Obligations.FrameBytesInWireOrder : Prop :=
  (∀ bri r g b : Nat, wordBytes (encodeFrame bri r g b) =
    [0b111#3 ++ BitVec.ofNat 5 bri, BitVec.ofNat 8 b, BitVec.ofNat 8 g, BitVec.ofNat 8 r]) ∧
  (∀ w : Word, wireBits w = (wordBytes w).flatMap (fun byte => (List.range 8).map (fun i => byte.getLsbD (7 - i))))

/-! ## ENCODE -/

/-- R80: both forms of the pseudocode agree, for operands of any width (R71). -/
def Obligations.EncodeIsOrOfShiftedFields : Prop :=
  ∀ bri r g b : Nat, encodeFrame bri r g b =
    BitVec.ofNat 32 (0xE0000000 ||| ((bri &&& 0x1F) <<< 24) ||| ((b &&& 0xFF) <<< 16) ||| ((g &&& 0xFF) <<< 8) ||| (r &&& 0xFF))

/-- R83: adding 32k to the brightness or 256k to any channel leaves the frame unchanged; on 8-bit ports, where addition wraps, the brightness
form still holds and the channel form is trivial. -/
def Obligations.EncodeMasksOverflow : Prop :=
  (∀ k bri r g b : Nat,
    encodeFrame (bri + 32 * k) r g b = encodeFrame bri r g b ∧
    encodeFrame bri (r + 256 * k) g b = encodeFrame bri r g b ∧
    encodeFrame bri r (g + 256 * k) b = encodeFrame bri r g b ∧
    encodeFrame bri r g (b + 256 * k) = encodeFrame bri r g b) ∧
  (∀ (k : Nat) (bri : Byte) (c : Colour), encodeColour (bri + BitVec.ofNat 8 (32 * k)) c = encodeColour bri c) ∧
  (∀ (k : Nat) (x : Byte), x + BitVec.ofNat 8 (256 * k) = x)

/-- R84: the five fields of ENCODE's result, for every input. -/
def Obligations.EncodeOutputForm : Prop :=
  ∀ bri r g b : Nat,
    markOf (encodeFrame bri r g b) = 0b111#3 ∧
    (briOf (encodeFrame bri r g b)).toNat = bri &&& 0x1F ∧
    (blueOf (encodeFrame bri r g b)).toNat = b &&& 0xFF ∧
    (greenOf (encodeFrame bri r g b)).toNat = g &&& 0xFF ∧
    (redOf (encodeFrame bri r g b)).toNat = r &&& 0xFF

/-- R85, with the field extraction of R68: ENCODE is a bijection from the 2^29 masked inputs onto the words with mark `0b111`, its inverse is the
extraction of the fields, and every input counts as its masked form. -/
def Obligations.EncodeIsABijection : Prop :=
  Set.BijOn (fun p : BitVec 5 × Byte × Byte × Byte => encodeFrame p.1.toNat p.2.1.toNat p.2.2.1.toNat p.2.2.2.toNat)
    Set.univ {w : Word | markOf w = 0b111#3} ∧
  Nat.card (BitVec 5 × Byte × Byte × Byte) = 2 ^ 29 ∧
  (∀ w : Word, markOf w = 0b111#3 → encodeFrame (briOf w).toNat (redOf w).toNat (greenOf w).toNat (blueOf w).toNat = w) ∧
  (∀ bri r g b : Nat, encodeFrame bri r g b = encodeFrame (bri &&& 0x1F) (r &&& 0xFF) (g &&& 0xFF) (b &&& 0xFF))

/-- R86: a white frame is the end word exactly at brightness 31 (mod 32); under the reference brightness no LED frame is; and the block emits such
a frame by position: at a position 1 to N it is accepted as an LED frame and the transmission goes on. -/
def Obligations.EndWordCollision : Prop :=
  (∀ bri : Nat, encodeFrame bri 255 255 255 = endWordBits ↔ bri &&& 0x1F = 31) ∧
  (∀ c : Colour, encodeColour Config.brightness c ≠ endWordBits) ∧
  (∀ (s : State) (k : Nat), 1 ≤ k → k ≤ s.ringSize → s.seq = .emit k → s.frameReady = true →
    s.ring[k - 1]? = some ⟨255, 255, 255⟩ → s.brightness.toNat &&& 0x1F = 31 →
    exec (.led 31#5 255#8 255#8 255#8) s = .next { s with accepted := s.accepted ++ [endWordBits], seq := .emit (k + 1) })

/-- R87: no LED frame equals the start word. -/
def Obligations.NoLedFrameIsTheStartWord : Prop :=
  ∀ bri r g b : Nat, encodeFrame bri r g b ≠ startWordBits

/-- R27: the 24-bit layout of a colour, `{b, g, r}`, is the order of bits 23:0 of the frame, so a frame is `{0b111, BRIGHTNESS[4:0], stored24(c)}`;
and the 24 bits hold the whole colour. -/
def Obligations.StoredColourIsTheFramesLowBits : Prop :=
  (∀ c : Colour, (stored24 c).extractLsb' 16 8 = c.b ∧ (stored24 c).extractLsb' 8 8 = c.g ∧ (stored24 c).extractLsb' 0 8 = c.r) ∧
  (∀ (bri : Byte) (c : Colour), encodeColour bri c = 0b111#3 ++ bri.extractLsb' 0 5 ++ stored24 c) ∧
  (∀ c : Colour, ofStored24 (stored24 c) = c) ∧
  (∀ v : BitVec 24, stored24 (ofStored24 v) = v)

/-- R66, R71: the port's output is `Encode` of its fields, which is `(enc_in & 0x1FFFFFFF) | 0xE0000000`, so bits 31:29 of `enc_in` are don't-care. -/
def Obligations.EncoderPortFunction : Prop :=
  ∀ s : State,
    s.encFrame = (s.encIn &&& 0x1FFFFFFF#32) ||| 0xE0000000#32 ∧
    ∀ x : Word, x.extractLsb' 0 29 = s.encIn.extractLsb' 0 29 → State.encFrame { s with encIn := x } = s.encFrame

/-- R81, with the frame of R82 and R91: ENCODE runs in every state on operands of any width, gives `Encode` of them on the port, and changes
nothing but the port's own input bus. -/
def Obligations.EncodeRunsOnEveryInput : Prop :=
  ∀ (bri r g b : Nat) (s : State), ∃ t : State, exec (.encode bri r g b) s = .next t ∧
    t.encFrame = encodeFrame bri r g b ∧
    byte3Of t.encIn = BitVec.ofNat 8 bri ∧ blueOf t.encIn = BitVec.ofNat 8 b ∧
    greenOf t.encIn = BitVec.ofNat 8 g ∧ redOf t.encIn = BitVec.ofNat 8 r ∧
    t = { s with encIn := t.encIn }

/-- R91: what is driven on `enc_in` makes no difference to any step but on `enc_in` itself, and no step but the driving of `enc_in` changes
`enc_frame`. -/
def Obligations.EncoderPortIsIndependent : Prop :=
  (∀ (s : State) (x : Word),
    (∃ reason : Refusal, step s = .refused reason ∧ step { s with encIn := x } = .refused reason) ∨
    (∃ (t : State) (y : Word), step s = .next t ∧ step { s with encIn := x } = .next { t with encIn := y })) ∧
  (∀ s t : State, step s = .next t → (∀ w : Word, s.events.head? ≠ some (.driveEncoder w)) → t.encFrame = s.encFrame)

/-! ## TICK and its steps -/

/-- R101, step 1: after it every one of the N slots holds `FILL`; the N writes can be made in any order; the ring that comes out depends on N and
`FILL` alone, so nothing of the ring before is left. -/
def Obligations.FillStep : Prop :=
  ∀ s : State,
    (∀ i : Nat, i < s.ringSize → s.fillRing.ring[i]? = some s.fill) ∧
    s.fillRing.ring.length = s.ringSize ∧
    (∀ order : List Nat, order.Perm (List.range s.ringSize) → s.ring.length = s.ringSize →
      order.foldl (fun u i => u.setSlot i s.fill) s = s.fillRing) ∧
    (∀ u : State, u.ringSize = s.ringSize → u.fill = s.fill → u.fillRing.ring = s.fillRing.ring)

/-- R102, step 2: slot `c`, the cursor at the start of the tick, gets `PRIMARY` over the fill of step 1; nothing else changes. -/
def Obligations.PrimaryStep : Prop :=
  ∀ (s : State) (c : Nat), c < s.ringSize →
    (s.fillRing.paintPrimary c).ring[c]? = some s.primary ∧
    (∀ i : Nat, i < s.ringSize → i ≠ c → (s.fillRing.paintPrimary c).ring[i]? = some s.fill) ∧
    s.paintPrimary c = { s with ring := s.ring.set c s.primary } ∧
    s.updateRing = ((s.fillRing.paintPrimary s.cursor).paintSecondary s.cursor).advanceCursor s.cursor

/-- R103, step 3: the four writes of `SECONDARY` at `c+1`, `c+2`, `c-1`, `c-2` modulo N, in this order, each index in `[0, N)`; `c` is the
start-of-tick cursor, which step 4 alone advances; and where one of them is slot `c` it overwrites the primary of step 2. -/
def Obligations.SecondaryStep : Prop :=
  ∀ (s : State) (c : Nat), c < s.ringSize →
    s.paintSecondary c = { s with ring := (((s.ring.set ((c + 1) % s.ringSize) s.secondary).set ((c + 2) % s.ringSize) s.secondary).set
      ((c + 2 * s.ringSize - 1) % s.ringSize) s.secondary).set ((c + 2 * s.ringSize - 2) % s.ringSize) s.secondary } ∧
    (∀ i ∈ secondarySlots s.ringSize c, i < s.ringSize) ∧
    (s.ring.length = s.ringSize → c ∈ secondarySlots s.ringSize c →
      ((s.paintPrimary c).paintSecondary c).ring[c]? = some s.secondary) ∧
    s.updateRing = ((s.fillRing.paintPrimary s.cursor).paintSecondary s.cursor).advanceCursor s.cursor

/-- R118: negative offsets use the mathematical modulo, which is the non-negative form `(c + 2N - k) mod N`; for N = 12 the values the rule gives;
and the truncating remainder gives indices that are not in `[0, N)`. -/
def Obligations.ModuloOfNegativeOffsets : Prop :=
  (∀ n c k : Nat, c < n → (k = 1 ∨ k = 2) →
    wrapIndex n ((c : Int) - k) = (c + 2 * n - k) % n ∧ wrapIndex n ((c : Int) - k) < n) ∧
  wrapIndex 12 (0 - 1) = 11 ∧ wrapIndex 12 (0 - 2) = 10 ∧ wrapIndex 12 (1 - 1) = 0 ∧ wrapIndex 12 (1 - 2) = 11 ∧
  Int.tmod (0 - 1) 12 = -1 ∧ Int.tmod (0 - 2) 12 = -2 ∧ Int.tmod (1 - 2) 12 = -1

/-- R105: the ring after steps 1 to 3 in closed form, from any ring; slot `c` is among the secondary slots only for N 1 or 2; from N = 5 on there are
one primary, four secondary and N - 5 fill slots (7 for N = 12); and the ring depends on N, the cursor and the palette alone. -/
def Obligations.RingAfterTheUpdate : Prop :=
  ∀ s : State, s.Wf →
    s.updateRing.ring = s.pattern s.cursor ∧
    (s.cursor ∈ secondarySlots s.ringSize s.cursor ↔ s.ringSize = 1 ∨ s.ringSize = 2) ∧
    (5 ≤ s.ringSize →
      ((List.range s.ringSize).filter (fun i => decide (i ∈ secondarySlots s.ringSize s.cursor))).length = 4 ∧
      ((List.range s.ringSize).filter (fun i => decide (i ∉ secondarySlots s.ringSize s.cursor ∧ i = s.cursor))).length = 1 ∧
      ((List.range s.ringSize).filter (fun i => decide (i ∉ secondarySlots s.ringSize s.cursor ∧ i ≠ s.cursor))).length = s.ringSize - 5) ∧
    (∀ u : State, u.ringSize = s.ringSize → u.cursor = s.cursor → u.primary = s.primary → u.secondary = s.secondary →
      u.fill = s.fill → u.updateRing.ring = s.updateRing.ring)

/-- R104: the rings of the table for N = 1 to 6, slot `c` first; the five indices are distinct exactly from N = 5 on; and the order among the four
secondary writes cannot be seen. -/
def Obligations.SmallRingsLastWriteWins : Prop :=
  (∀ s : State, s.Wf →
    let P := some s.primary
    let S := some s.secondary
    let F := some s.fill
    let fromCursor := (List.range s.ringSize).map (fun j => s.updateRing.ring[(s.cursor + j) % s.ringSize]?)
    (s.ringSize = 1 → fromCursor = [S]) ∧
    (s.ringSize = 2 → fromCursor = [S, S]) ∧
    (s.ringSize = 3 → fromCursor = [P, S, S]) ∧
    (s.ringSize = 4 → fromCursor = [P, S, S, S]) ∧
    (s.ringSize = 5 → fromCursor = [P, S, S, S, S]) ∧
    (s.ringSize = 6 → fromCursor = [P, S, S, F, S, S])) ∧
  (∀ n c : Nat, c < n → ((c :: secondarySlots n c).Nodup ↔ 5 ≤ n)) ∧
  (∀ (s : State) (c : Nat), c < s.ringSize → ∀ order : List Nat, order.Perm (secondarySlots s.ringSize c) →
    order.foldl (fun u i => u.setSlot i s.secondary) s = s.paintSecondary c)

/-- R106, step 4: a tick accepted in IDLE leaves `(c + 1) mod N` in the cursor (for N = 12: 11 to 0, every other `c` to `c + 1`) with the
transmission about to start; no word of it depends on the cursor; and no step within a transmission moves it, reset apart. -/
def Obligations.CursorAdvances : Prop :=
  (∀ s : State, s.Wf → s.seq = .idle → ∃ t : State, exec .tick s = .next t ∧ t.seq = .emit 0 ∧
    t.cursor = (s.cursor + 1) % s.ringSize ∧
    (s.ringSize = 12 → t.cursor = if s.cursor = 11 then 0 else s.cursor + 1) ∧
    (∀ x k : Nat, State.word { t with cursor := x } k = t.word k)) ∧
  (∀ s t : State, s.seq ≠ .idle → (∀ taken : Bool, s.events.head? ≠ some (.reset taken)) → step s = .next t → t.cursor = s.cursor)

/-- R100, R105, R109: TICK completes. In IDLE it is accepted, and the next state holds the closed-form ring, the advanced cursor and EMIT(0), with
the request no longer held (log entry 9) and everything else as it was. -/
def Obligations.TickBegins : Prop :=
  ∀ s : State, s.Wf → s.seq = .idle →
    exec .tick s = .next { s with
      ring := s.pattern s.cursor, cursor := (s.cursor + 1) % s.ringSize, seq := .emit 0, tickValid := false }

/-- R65, R161: while a tick is in progress a request waits, held on the command interface, with nothing else changed; a second request while one
is held changes nothing (log entry 8); a held request is accepted at the block's next move in IDLE; and no step clears it, a reset included
(log entry 7), but the one that accepts it, from IDLE to EMIT(0) with its update, so it is not lost. -/
def Obligations.TickRequestWaits : Prop :=
  (∀ s : State, 1 ≤ s.ringSize → s.seq ≠ .idle → exec .tick s = .next { s with tickValid := true }) ∧
  (∀ s : State, 1 ≤ s.ringSize → s.seq ≠ .idle → s.tickValid = true → exec .tick s = .next s) ∧
  (∀ s t : State, s.tickValid = true → step s = .next t →
    t.tickValid = true ∨
    (s.seq = .idle ∧ t.seq = .emit 0 ∧ t.ring = s.updateRing.ring ∧ t.cursor = s.updateRing.cursor)) ∧
  (∀ s : State, s.Wf → s.seq = .idle → s.tickValid = true → (s.events.head? = none ∨ s.events.head? = some .advance) →
    step s = .next { s with ring := s.pattern s.cursor, cursor := (s.cursor + 1) % s.ringSize, seq := .emit 0, tickValid := false,
                            events := s.events.tail })

/-- The frame of TICK, in every state: only ring, cursor, sequencer and the held request can change (R100), and ring, cursor and sequencer only if
the block was in IDLE (R109). -/
def Obligations.TickFrame : Prop :=
  ∀ s t : State, exec .tick s = .next t →
    t = { s with ring := t.ring, cursor := t.cursor, seq := t.seq, tickValid := t.tickValid } ∧
    (s.seq ≠ .idle → t.ring = s.ring ∧ t.cursor = s.cursor ∧ t.seq = s.seq)

/-- R117: the twelve rings of the table and the cursor after, for N = 12. -/
def Obligations.PatternsForTwelve : Prop :=
  ∀ s : State, s.Wf → s.ringSize = 12 → s.seq = .idle →
    let P := s.primary
    let S := s.secondary
    let F := s.fill
    ∃ t : State, exec .tick s = .next t ∧
      [[P, S, S, F, F, F, F, F, F, F, S, S],
       [S, P, S, S, F, F, F, F, F, F, F, S],
       [S, S, P, S, S, F, F, F, F, F, F, F],
       [F, S, S, P, S, S, F, F, F, F, F, F],
       [F, F, S, S, P, S, S, F, F, F, F, F],
       [F, F, F, S, S, P, S, S, F, F, F, F],
       [F, F, F, F, S, S, P, S, S, F, F, F],
       [F, F, F, F, F, S, S, P, S, S, F, F],
       [F, F, F, F, F, F, S, S, P, S, S, F],
       [F, F, F, F, F, F, F, S, S, P, S, S],
       [S, F, F, F, F, F, F, F, S, S, P, S],
       [S, S, F, F, F, F, F, F, F, S, S, P]][s.cursor]? = some t.ring ∧
      [1, 2, 3, 4, 5, 6, 7, 8, 9, 10, 11, 0][s.cursor]? = some t.cursor

/-! ## START, LED, END -/

/-- R108: the word function. -/
def Obligations.WordFunction : Prop :=
  ∀ s : State, s.Wf →
    s.word 0 = some 0x00000000#32 ∧
    (∀ (k : Nat) (c : Colour), 1 ≤ k → k ≤ s.ringSize → s.ring[k - 1]? = some c →
      s.word k = some (encodeFrame s.brightness.toNat c.r.toNat c.g.toNat c.b.toNat)) ∧
    s.word (s.ringSize + 1) = some 0xFFFFFFFF#32

/-- R88: START completes: in EMIT(0) with the sink ready, `0x00000000` is accepted and `seq` goes to EMIT(1); nothing else changes. -/
def Obligations.StartIsAccepted : Prop :=
  ∀ s : State, s.seq = .emit 0 → s.frameReady = true →
    exec .startWord s = .next { s with accepted := s.accepted ++ [0x00000000#32], seq := .emit 1 }

/-- R90: LED completes: in EMIT(j + 1) with the sink ready, the frame `Encode(BRIGHTNESS, ring[j])` is accepted and `seq` goes to EMIT(j + 2); nothing
else changes. -/
def Obligations.LedIsAccepted : Prop :=
  ∀ (s : State) (j : Nat) (c : Colour), j < s.ringSize → s.ring[j]? = some c → s.seq = .emit (j + 1) → s.frameReady = true →
    exec (.led (s.brightness.extractLsb' 0 5) c.b c.g c.r) s =
      .next { s with accepted := s.accepted ++ [encodeFrame s.brightness.toNat c.r.toNat c.g.toNat c.b.toNat], seq := .emit (j + 2) }

/-- R89: END completes: in EMIT(N + 1) with the sink ready, `0xFFFFFFFF` is accepted and `seq` goes to IDLE; nothing else changes. -/
def Obligations.EndIsAccepted : Prop :=
  ∀ s : State, s.seq = .emit (s.ringSize + 1) → s.frameReady = true →
    exec .endWord s = .next { s with accepted := s.accepted ++ [0xFFFFFFFF#32], seq := .idle }

/-- R144: while the sink is not ready, a frame word holds the block where it is. -/
def Obligations.FrameWordsWaitForTheSink : Prop :=
  ∀ s : State, s.frameReady = false →
    exec .startWord s = .next s ∧ (∀ (bri : BitVec 5) (b g r : Byte), exec (.led bri b g r) s = .next s) ∧ exec .endWord s = .next s

/-- The frame of START, LED and END, in every state and for every operand (R151, R109): either nothing changes or the sink, being ready, takes
exactly the offered word and `seq` moves to the next phase. That the other case changes nothing is the model's reading: log entry 10. -/
def Obligations.OnlyTheOfferedWordIsAccepted : Prop :=
  ∀ (i : Instr) (s t : State), i = .startWord ∨ i = .endWord ∨ (∃ bri b g r, i = .led bri b g r) → exec i s = .next t →
    t = s ∨ ∃ (k : Nat) (w : Word), s.seq = .emit k ∧ s.frameReady = true ∧ s.offered = some w ∧
      t = { s with accepted := s.accepted ++ [w], seq := if k ≤ s.ringSize then .emit (k + 1) else .idle }

/-- R110: every LED frame of a transmission carries `BRIGHTNESS & 0x1F`, and no step changes `BRIGHTNESS`, so every transmission carries the same. -/
def Obligations.OneBrightnessPerTransmission : Prop :=
  (∀ (s : State) (k : Nat) (w : Word), 1 ≤ k → k ≤ s.ringSize → s.word k = some w →
    (briOf w).toNat = s.brightness.toNat &&& 0x1F) ∧
  (∀ s t : State, step s = .next t → t.brightness = s.brightness)

/-- R70: every offered word is the start word or has mark `0b111`. -/
def Obligations.OfferedWordsHaveTheirForm : Prop :=
  ∀ (s : State) (w : Word), s.offered = some w → w = 0x00000000#32 ∨ markOf w = 0b111#3

/-! ## The sequencer and the step -/

/-- A step runs the decoded operation: when the bytes presented next decode to `i`, the step is `exec i` of the state whose event is consumed. -/
def Obligations.StepRunsTheDecodedOperation : Prop :=
  ∀ (s : State) (iface : Interface) (bytes : List Byte) (i : Instr), 1 ≤ s.ringSize → s.nextMove = .present iface bytes →
    decode iface bytes = .ok i → step s = exec i s.consumeEvent

/-- What is presented (R65, R66, R67, R152): at the block's own move a held request in IDLE or, with the sink ready, the offered word at its
position; a request of the host once initialisation has succeeded; the encoder's bus. -/
def Obligations.WhatIsPresented : Prop :=
  (∀ s : State, s.events.head? = none ∨ s.events.head? = some .advance → s.seq = .idle → s.tickValid = true →
    s.nextMove = .present .command [0x01#8]) ∧
  (∀ (s : State) (k : Nat) (w : Word), s.events.head? = none ∨ s.events.head? = some .advance → s.seq = .emit k → s.frameReady = true →
    s.offered = some w → s.nextMove = .present (.frameStream s.ringSize k) (wordBytes w)) ∧
  (∀ s : State, s.events.head? = some .requestTick → s.init = .succeeded → s.nextMove = .present .command [0x01#8]) ∧
  (∀ (s : State) (w : Word), s.events.head? = some (.driveEncoder w) → s.nextMove = .present .encoderPort (wordBytes w))

/-- Every word of a transmission decodes at its position to an operation that the position carries and whose bytes it is (R67, R108). -/
def Obligations.WordsDecodeAtTheirPosition : Prop :=
  ∀ (s : State) (k : Nat) (w : Word), s.word k = some w →
    ∃ i : Instr, decode (.frameStream s.ringSize k) (wordBytes w) = .ok i ∧ (Interface.frameStream s.ringSize k).Carries i ∧
      encode i = wordBytes w

/-- R109, R23: the sequencer's transitions and no others: it stays, with ring, cursor and accepted words as they were; it leaves IDLE for EMIT(0)
by a requested tick with its update; it leaves EMIT(k) for the next phase by the acceptance of `word(k)`; or a reset takes it to IDLE. -/
def Obligations.SequencerTransitions : Prop :=
  ∀ s t : State, step s = .next t →
    (t.seq = s.seq ∧ t.ring = s.ring ∧ t.cursor = s.cursor ∧ t.accepted = s.accepted) ∨
    (s.seq = .idle ∧ (s.tickValid = true ∨ s.events.head? = some .requestTick) ∧ t.seq = .emit 0 ∧
      t.ring = s.updateRing.ring ∧ t.cursor = s.updateRing.cursor ∧ t.accepted = s.accepted) ∨
    (∃ (k : Nat) (w : Word), s.seq = .emit k ∧ s.word k = some w ∧ s.frameReady = true ∧
      t.seq = (if k ≤ s.ringSize then .emit (k + 1) else .idle) ∧ t.ring = s.ring ∧ t.cursor = s.cursor ∧
      t.accepted = s.accepted ++ [w]) ∨
    (∃ taken : Bool, s.events.head? = some (.reset taken) ∧ t.seq = .idle ∧ t.cursor = 0)

/-- R112: while a word is being offered, no step but a reset writes ring or cursor, so every `word(k)` keeps its value. -/
def Obligations.RingFrozenDuringTransmission : Prop :=
  ∀ s t : State, s.seq ≠ .idle → (∀ taken : Bool, s.events.head? ≠ some (.reset taken)) → step s = .next t →
    t.ring = s.ring ∧ t.cursor = s.cursor ∧ ∀ k : Nat, t.word k = s.word k

/-- R20(d), R25, R26, R46: no step writes the configuration constants, nor N. -/
def Obligations.ConstantsAreNeverWritten : Prop :=
  ∀ s t : State, step s = .next t →
    t.ringSize = s.ringSize ∧ t.primary = s.primary ∧ t.secondary = s.secondary ∧ t.fill = s.fill ∧ t.brightness = s.brightness

/-- R141, R151: the sink's words only grow, one offered word at a time, and only while the sink is ready. -/
def Obligations.AcceptedWordsAreTheOfferedOnes : Prop :=
  ∀ s t : State, step s = .next t →
    t.accepted = s.accepted ∨ ∃ w : Word, s.offered = some w ∧ s.frameReady = true ∧ t.accepted = s.accepted ++ [w]

/-- R142, R24: an offered word is held unchanged, in its phase, until it is accepted; only a reset withdraws it. -/
def Obligations.OfferedWordIsHeld : Prop :=
  ∀ (s t : State) (w : Word), s.offered = some w → (∀ taken : Bool, s.events.head? ≠ some (.reset taken)) → step s = .next t →
    t.accepted = s.accepted → t.offered = some w ∧ t.seq = s.seq

/-- R144, R189: with a sink that is not ready and never becomes so, the block stays in EMIT(k) for ever, whatever the host does short of a reset:
any number of steps leaves phase, ring, cursor, offered word and accepted words as they were. With initialisation done such a run is never stopped,
and with no event listed no number of steps changes anything at all. -/
def Obligations.SinkThatNeverAcceptsHoldsTheBlock : Prop :=
  ∀ (s : State) (k : Nat), 1 ≤ s.ringSize → s.seq = .emit k → s.frameReady = false →
    (∀ e ∈ s.events, e ≠ .sinkReady true ∧ ∀ taken : Bool, e ≠ .reset taken) →
    (∀ (m : Nat) (t : State), Host.Core.run Sys2Proof.core m s = .next t →
      t.seq = .emit k ∧ t.ring = s.ring ∧ t.cursor = s.cursor ∧ t.offered = s.offered ∧ t.accepted = s.accepted) ∧
    (s.init = .succeeded → ∀ m : Nat, ∃ t : State, Host.Core.run Sys2Proof.core m s = .next t) ∧
    (s.events = [] → ∀ m : Nat, Host.Core.run Sys2Proof.core m s = .next s)

/-- R148, R152, R174, R147, R167: the host's delay changes nothing; the sink's readiness is the level it drives; a pending initialisation ends with
success or failure as the event says, and one that has ended stays as it is (log entry 13). The block and the accepted words stay as they are. -/
def Obligations.OtherMovesLeaveTheBlock : Prop :=
  ∀ (s : State) (es : List Event), 1 ≤ s.ringSize →
    (∀ ms : Nat, s.events = .wait ms :: es → step s = .next { s with events := es }) ∧
    (∀ ready : Bool, s.events = .sinkReady ready :: es → step s = .next { s with frameReady := ready, events := es }) ∧
    (∀ ok : Bool, s.events = .initialise ok :: es → s.init = .pending →
      step s = .next { s with init := if ok then .succeeded else .failed, events := es }) ∧
    (∀ ok : Bool, s.events = .initialise ok :: es → s.init ≠ .pending → step s = .next { s with events := es })

/-- R160, R8, R186: no step faults; a state that meets R31 is refused exactly when the host requests a tick before initialisation has succeeded
(log entry 12), and a ring of size 0 is always refused (log entry 5). -/
def Obligations.StepStopsOnlyThere : Prop :=
  (∀ (s : State) (f : Fault), step s ≠ .fault f) ∧
  (∀ s : State, s.Wf → ∀ reason : Refusal, step s = .refused reason ↔
    (reason = .tickBeforeInitialisation ∧ s.events.head? = some .requestTick ∧ s.init ≠ .succeeded)) ∧
  (∀ s : State, s.ringSize = 0 → step s = .refused .emptyRing)

/-! ## Reset -/

/-- R180, R181, R33, R163: a reset in any phase leaves IDLE, cursor 0, a ring of N slots of free values (the next draw, log entry 2), nothing
offered and `tick_ready = 1`; the words accepted before stay accepted; a word the sink was taking on that edge counts or not, as `taken` says; and
everything else is as it was: the constants as configured and, the model's reading (log entry 7), `tick_valid`, `frame_ready`, `enc_in`, the
initialisation status and the events still to come. -/
def Obligations.ResetLeavesTheResetState : Prop :=
  ∀ (s : State) (taken : Bool) (es : List Event), 1 ≤ s.ringSize → s.events = .reset taken :: es →
    ∃ t : State, step s = .next t ∧
      t = { s with ring := drawnRing s.ringSize s.draws, cursor := 0, seq := .idle, accepted := t.accepted, events := es, draws := s.draws + 1 } ∧
      t.ring.length = s.ringSize ∧ t.offered = none ∧ t.frameValid = false ∧ t.tickReady = true ∧
      (∀ w : Word, s.offered = some w → s.frameReady = true → t.accepted = if taken then s.accepted ++ [w] else s.accepted) ∧
      (s.offered = none ∨ s.frameReady = false → t.accepted = s.accepted)

/-- R33, R28: the machine's reset state: N = 12 slots, cursor 0, IDLE, not busy, nothing offered. -/
def Obligations.MachineResetState : Prop :=
  State.reset.ringSize = 12 ∧ State.reset.ring.length = 12 ∧ State.reset.cursor = 0 ∧ State.reset.seq = .idle ∧
  State.reset.busy = false ∧ State.reset.tickReady = true ∧ State.reset.frameValid = false ∧ State.reset.offered = none

/-- THE MODEL'S CHOICE, log entry 4: State.reset is configured with the reference configuration of R10. -/
def Obligations.ResetHasTheReferenceConfiguration : Prop :=
  State.reset.primary = ⟨255, 0, 0⟩ ∧ State.reset.secondary = ⟨255, 0, 255⟩ ∧ State.reset.fill = ⟨0, 255, 255⟩ ∧ State.reset.brightness = 15

/-- The reset state meets every invariant below. -/
def Obligations.ResetMeetsTheInvariants : Prop :=
  State.reset.Wf ∧ State.reset.InitFirst ∧ State.reset.SentSoFar ∧ State.reset.StreamOk

/-! ## Invariants of every step -/

/-- R31: the state invariants (N colours in the ring, a valid cursor, a phase in its range) hold at reset and every step keeps them, from every
state that meets them; and brightness is masked to 5 bits in every LED frame. -/
def Obligations.StepKeepsTheStateInvariants : Prop :=
  State.reset.Wf ∧
  (∀ s t : State, s.Wf → step s = .next t → t.Wf) ∧
  (∀ (bri : Byte) (c : Colour), (briOf (encodeColour bri c)).toNat = bri.toNat &&& 0x1F)

/-- R12: the cursor and the emission index fit their registers, which are 4 bits each for N = 12. -/
def Obligations.CursorAndIndexFitTheirRegisters : Prop :=
  (∀ s : State, s.Wf → s.cursor < 2 ^ Config.cursorWidth s.ringSize ∧
    ∀ k : Nat, s.seq = .emit k → k < 2 ^ Config.indexWidth s.ringSize) ∧
  Config.cursorWidth 12 = 4 ∧ Config.indexWidth 12 = 4 ∧ Config.cursorWidth 1 = 1

/-- R48, R107, R24: in EMIT(k) the last k accepted words are `word(0)` to `word(k - 1)`, in order. Every step keeps this. -/
def Obligations.StepKeepsTheSentWords : Prop :=
  ∀ s t : State, s.SentSoFar → step s = .next t → t.SentSoFar

/-- R67, R181: the accepted words stay a concatenation of transmissions `START LED^N END`, of which each reset cuts at most one short. Every step
keeps this. -/
def Obligations.StepKeepsTheStreamGrammar : Prop :=
  ∀ s t : State, s.StreamOk → step s = .next t → t.StreamOk

/-- R186, R147, R167: until initialisation has succeeded the block stays in IDLE with no request held and no word accepted. Every step keeps this.
It rests on the model's refusal of an earlier request: log entry 12. -/
def Obligations.NothingBeforeInitialisation : Prop :=
  ∀ s t : State, s.InitFirst → step s = .next t → t.InitFirst

/-! ## Whole ticks -/

/-- R100, R107, R109: a whole tick. From IDLE at cursor `c`, with a sink that is ready, a request and N + 2 moves of the block leave the closed-form
ring, the cursor at `(c + 1) mod N`, IDLE, and the transmission of cursor `c` accepted. -/
def Obligations.WholeTick : Prop :=
  ∀ (s : State) (rest : List Event), s.Wf → s.seq = .idle → s.init = .succeeded → s.frameReady = true →
    s.events = tickEvents s.ringSize ++ rest →
    Host.Core.run Sys2Proof.core (s.ringSize + 3) s = .next { s with
      ring := s.pattern s.cursor, cursor := (s.cursor + 1) % s.ringSize, tickValid := false,
      accepted := s.accepted ++ s.transmission s.cursor, events := rest }

/-- R116: a complete tick has the sink accept exactly N + 2 words: `0x00000000`, then for each ring slot in index order its encoded frame, then
`0xFFFFFFFF`. -/
def Obligations.TransmissionShape : Prop :=
  ∀ (s : State) (rest : List Event), s.Wf → s.seq = .idle → s.init = .succeeded → s.frameReady = true →
    s.events = tickEvents s.ringSize ++ rest →
    ∃ (t : State) (words : List Word), Host.Core.run Sys2Proof.core (s.ringSize + 3) s = .next t ∧ t.seq = .idle ∧
      t.accepted = s.accepted ++ words ∧ words.length = s.ringSize + 2 ∧ (s.ringSize = 12 → words.length = 14) ∧
      words[0]? = some 0x00000000#32 ∧ words[s.ringSize + 1]? = some 0xFFFFFFFF#32 ∧
      ∀ j : Nat, j < s.ringSize → ∃ c : Colour, t.ring[j]? = some c ∧
        words[j + 1]? = some (encodeFrame t.brightness.toNat c.r.toNat c.g.toNat c.b.toNat)

/-- R114, R115: any number `n` of ticks from IDLE: the cursor has moved by `n` modulo N, the ring is that of the last tick, and the accepted words
are the transmissions of the cursors passed, in order. -/
def Obligations.RunOfTicks : Prop :=
  ∀ (n : Nat) (s : State) (rest : List Event), s.Wf → s.seq = .idle → s.init = .succeeded → s.frameReady = true → s.tickValid = false →
    s.events = (HostCommand.tick n).events s.ringSize ++ rest →
    Host.Core.run Sys2Proof.core (n * (s.ringSize + 3)) s = .next { s with
      ring := if n = 0 then s.ring else s.pattern ((s.cursor + (n - 1)) % s.ringSize)
      cursor := (s.cursor + n) % s.ringSize
      accepted := s.accepted ++ ((List.range n).map (fun j => s.transmission ((s.cursor + j) % s.ringSize))).flatten
      events := rest }

/-- R149: with a sink that is ready at each of the block's next N + 2 - k moves, a transmission in EMIT(k) completes in those moves, and the sink
has `word(k)` to `word(N + 1)` in order. The moves are listed, before any other events, or no event is listed and the block goes on by itself (the
model's choice: log entry 1). -/
def Obligations.ReadySinkCompletesTheTick : Prop :=
  ∀ (s : State) (k : Nat) (rest : List Event), s.Wf → s.seq = .emit k → s.frameReady = true →
    (s.events = List.replicate (s.ringSize + 2 - k) .advance ++ rest ∨ (s.events = [] ∧ rest = [])) →
    ∃ words : List Word, words.map some = (List.range' k (s.ringSize + 2 - k)).map s.word ∧
      Host.Core.run Sys2Proof.core (s.ringSize + 2 - k) s = .next { s with seq := .idle, accepted := s.accepted ++ words, events := rest }

/-- R183, R119: the ring in IDLE cannot be observed. Two runs that start in IDLE and differ only in the ring agree for ever, whatever the other
agents do, on everything but the ring; no sink word depends on it. -/
def Obligations.IdleRingIsUnobservable : Prop :=
  ∀ (s : State) (ring : List Colour) (m : Nat), s.seq = .idle →
    (∃ reason : Refusal, Host.Core.run Sys2Proof.core m s = .refused reason ∧
      Host.Core.run Sys2Proof.core m { s with ring := ring } = .refused reason) ∨
    (∃ (t : State) (ring' : List Colour), Host.Core.run Sys2Proof.core m s = .next t ∧
      Host.Core.run Sys2Proof.core m { s with ring := ring } = .next { t with ring := ring' } ∧ (t.seq ≠ .idle → ring' = t.ring))

/-- R149: under the fairness assumption on the sink, "the sink eventually accepts each offered word", a transmission in EMIT(k) that no reset cuts
short completes, whatever finite stalls, requests and delays come between: after some number of steps the block is in IDLE, the sink has `word(k)` to
`word(N + 1)` in order, and ring and cursor are as they were. And the assumption is met by every run whose listed events leave the
sink ready, from a state that meets R31 and in which nothing came before initialisation. -/
def Obligations.FairSinkCompletesTheTick : Prop :=
  (∀ (s : State) (k : Nat), s.Wf → s.seq = .emit k → (∀ taken : Bool, .reset taken ∉ s.events) → s.SinkFair →
    ∃ (m : Nat) (t : State) (words : List Word), Host.Core.run Sys2Proof.core m s = .next t ∧ t.seq = .idle ∧
      words.map some = (List.range' k (s.ringSize + 2 - k)).map s.word ∧ t.accepted = s.accepted ++ words ∧
      t.ring = s.ring ∧ t.cursor = s.cursor) ∧
  (∀ s : State, s.Wf → s.InitFirst → s.SinkEndsReady → s.SinkFair)

end
end

