-- ==== Sys2Proof/Laws/Encoding.lean ====
section
/-! SUPPORT. What the field extractors, the byte layout and the Frame Encoder's word give, each once. -/

namespace Sys2Proof

/-! The fields of an LED frame. -/

@[simp] theorem markOf_ledWordBits (bri : BitVec 5) (b g r : Byte) : markOf (ledWordBits bri b g r) = 0b111#3 := by
  simp only [markOf, ledWordBits]; ext i hi; simp only [BitVec.getElem_extractLsb', BitVec.getLsbD_append]
  rw [if_neg (by omega), if_neg (by omega), if_neg (by omega), if_neg (by omega)]
  simp [← BitVec.getLsbD_eq_getElem, show 29 + i - 8 - 8 - 8 - 5 = i by omega]

@[simp] theorem briOf_ledWordBits (bri : BitVec 5) (b g r : Byte) : briOf (ledWordBits bri b g r) = bri := by
  simp only [briOf, ledWordBits]; ext i hi; simp only [BitVec.getElem_extractLsb', BitVec.getLsbD_append]
  rw [if_neg (by omega), if_neg (by omega), if_neg (by omega), if_pos (by omega)]
  simp [← BitVec.getLsbD_eq_getElem, show 24 + i - 8 - 8 - 8 = i by omega]

@[simp] theorem blueOf_ledWordBits (bri : BitVec 5) (b g r : Byte) : blueOf (ledWordBits bri b g r) = b := by
  simp only [blueOf, ledWordBits]; ext i hi; simp only [BitVec.getElem_extractLsb', BitVec.getLsbD_append]
  rw [if_neg (by omega), if_neg (by omega), if_pos (by omega)]
  simp [← BitVec.getLsbD_eq_getElem, show 16 + i - 8 - 8 = i by omega]

@[simp] theorem greenOf_ledWordBits (bri : BitVec 5) (b g r : Byte) : greenOf (ledWordBits bri b g r) = g := by
  simp only [greenOf, ledWordBits]; ext i hi; simp only [BitVec.getElem_extractLsb', BitVec.getLsbD_append]
  rw [if_neg (by omega), if_pos (by omega)]
  simp [← BitVec.getLsbD_eq_getElem, show 8 + i - 8 = i by omega]

@[simp] theorem redOf_ledWordBits (bri : BitVec 5) (b g r : Byte) : redOf (ledWordBits bri b g r) = r := by
  simp only [redOf, ledWordBits]; ext i hi; simp only [BitVec.getElem_extractLsb', BitVec.getLsbD_append]
  rw [if_pos (by omega)]
  simp [← BitVec.getLsbD_eq_getElem]

/-! The fields of four joined bytes. -/

@[simp] theorem byte3Of_append (b3 b2 b1 b0 : Byte) : byte3Of (b3 ++ b2 ++ b1 ++ b0) = b3 := by
  simp only [byte3Of]; ext i hi; simp only [BitVec.getElem_extractLsb', BitVec.getLsbD_append]
  rw [if_neg (by omega), if_neg (by omega), if_neg (by omega)]
  simp [← BitVec.getLsbD_eq_getElem, show 24 + i - 8 - 8 - 8 = i by omega]

@[simp] theorem blueOf_append (b3 b2 b1 b0 : Byte) : blueOf (b3 ++ b2 ++ b1 ++ b0) = b2 := by
  simp only [blueOf]; ext i hi; simp only [BitVec.getElem_extractLsb', BitVec.getLsbD_append]
  rw [if_neg (by omega), if_neg (by omega), if_pos (by omega)]
  simp [← BitVec.getLsbD_eq_getElem, show 16 + i - 8 - 8 = i by omega]

@[simp] theorem greenOf_append (b3 b2 b1 b0 : Byte) : greenOf (b3 ++ b2 ++ b1 ++ b0) = b1 := by
  simp only [greenOf]; ext i hi; simp only [BitVec.getElem_extractLsb', BitVec.getLsbD_append]
  rw [if_neg (by omega), if_pos (by omega)]
  simp [← BitVec.getLsbD_eq_getElem, show 8 + i - 8 = i by omega]

@[simp] theorem redOf_append (b3 b2 b1 b0 : Byte) : redOf (b3 ++ b2 ++ b1 ++ b0) = b0 := by
  simp only [redOf]; ext i hi; simp only [BitVec.getElem_extractLsb', BitVec.getLsbD_append]
  rw [if_pos (by omega)]
  simp [← BitVec.getLsbD_eq_getElem]

/-- A word is its four bytes. -/
theorem append_bytes (w : Word) : byte3Of w ++ blueOf w ++ greenOf w ++ redOf w = w := by
  apply BitVec.eq_of_getLsbD_eq
  intro i hi
  simp only [byte3Of, blueOf, greenOf, redOf, BitVec.getLsbD_append, BitVec.getLsbD_extractLsb']
  split_ifs with h1 h2 h3
  · simp [h1]
  · simp [h2, show 8 + (i - 8) = i by omega]
  · simp [h3, show 16 + (i - 8 - 8) = i by omega]
  · simp [show 24 + (i - 8 - 8 - 8) = i by omega, show i - 8 - 8 - 8 < 8 by omega]

/-- A word is its mark, its brightness and its three channels. -/
theorem append_fields (w : Word) : markOf w ++ briOf w ++ blueOf w ++ greenOf w ++ redOf w = w := by
  apply BitVec.eq_of_getLsbD_eq
  intro i hi
  simp only [markOf, briOf, blueOf, greenOf, redOf, BitVec.getLsbD_append, BitVec.getLsbD_extractLsb']
  split_ifs with h1 h2 h3 h4
  · simp [h1]
  · simp [h2, show 8 + (i - 8) = i by omega]
  · simp [h3, show 16 + (i - 8 - 8) = i by omega]
  · simp [h4, show 24 + (i - 8 - 8 - 8) = i by omega]
  · simp [show 29 + (i - 8 - 8 - 8 - 5) = i by omega, show i - 8 - 8 - 8 - 5 < 3 by omega]

@[simp] theorem ofWordBytes_wordBytes (w : Word) : ofWordBytes (wordBytes w) = some w := by
  simp only [wordBytes, ofWordBytes, append_bytes]

/-- Only the four bytes of a word join to it. -/
theorem wordBytes_of_ofWordBytes {bytes : List Byte} {w : Word} (h : ofWordBytes bytes = some w) : wordBytes w = bytes := by
  unfold ofWordBytes at h
  split at h
  · obtain rfl := Option.some.inj h; simp [wordBytes]
  · cases h

namespace Machine

/-- The Frame Encoder's word is the LED frame of the operands' low bits. -/
theorem encodeFrame_eq_ledWordBits (bri r g b : Nat) :
    encodeFrame bri r g b = ledWordBits (BitVec.ofNat 5 bri) (BitVec.ofNat 8 b) (BitVec.ofNat 8 g) (BitVec.ofNat 8 r) := by
  have h5 : ∀ n : Nat, BitVec.ofNat 5 (n &&& 0x1F) = BitVec.ofNat 5 n := fun n => by
    apply BitVec.eq_of_toNat_eq
    rw [show (0x1F : Nat) = 2 ^ 5 - 1 from rfl, Nat.and_two_pow_sub_one_eq_mod]; simp
  have h8 : ∀ n : Nat, BitVec.ofNat 8 (n &&& 0xFF) = BitVec.ofNat 8 n := fun n => by
    apply BitVec.eq_of_toNat_eq
    rw [show (0xFF : Nat) = 2 ^ 8 - 1 from rfl, Nat.and_two_pow_sub_one_eq_mod]; simp
  simp only [encodeFrame, ledWordBits, h5, h8]

/-- The LED frame of a stored brightness and a colour. -/
theorem encodeColour_eq_ledWordBits (bri : Byte) (c : Colour) :
    encodeColour bri c = ledWordBits (bri.setWidth 5) c.b c.g c.r := by
  simp [encodeColour, encodeFrame_eq_ledWordBits, BitVec.ofNat_toNat]

end Machine

end Sys2Proof
end

