-- ==== Sys2Proof/Laws/State.lean ====
section
/-! SUPPORT. One lemma for each field of State and each update of it, so that a proof never unfolds a record update. -/

namespace Sys2Proof.Machine

@[simp] theorem State.setSlot_ringSize (s : State) (i : Nat) (c : Colour) : (s.setSlot i c).ringSize = s.ringSize := rfl
@[simp] theorem State.setSlot_ring (s : State) (i : Nat) (c : Colour) : (s.setSlot i c).ring = s.ring.set i c := rfl
@[simp] theorem State.setSlot_cursor (s : State) (i : Nat) (c : Colour) : (s.setSlot i c).cursor = s.cursor := rfl
@[simp] theorem State.setSlot_seq (s : State) (i : Nat) (c : Colour) : (s.setSlot i c).seq = s.seq := rfl
@[simp] theorem State.setSlot_primary (s : State) (i : Nat) (c : Colour) : (s.setSlot i c).primary = s.primary := rfl
@[simp] theorem State.setSlot_secondary (s : State) (i : Nat) (c : Colour) : (s.setSlot i c).secondary = s.secondary := rfl
@[simp] theorem State.setSlot_fill (s : State) (i : Nat) (c : Colour) : (s.setSlot i c).fill = s.fill := rfl
@[simp] theorem State.setSlot_brightness (s : State) (i : Nat) (c : Colour) : (s.setSlot i c).brightness = s.brightness := rfl
@[simp] theorem State.setSlot_tickValid (s : State) (i : Nat) (c : Colour) : (s.setSlot i c).tickValid = s.tickValid := rfl
@[simp] theorem State.setSlot_frameReady (s : State) (i : Nat) (c : Colour) : (s.setSlot i c).frameReady = s.frameReady := rfl
@[simp] theorem State.setSlot_encIn (s : State) (i : Nat) (c : Colour) : (s.setSlot i c).encIn = s.encIn := rfl
@[simp] theorem State.setSlot_init (s : State) (i : Nat) (c : Colour) : (s.setSlot i c).init = s.init := rfl
@[simp] theorem State.setSlot_accepted (s : State) (i : Nat) (c : Colour) : (s.setSlot i c).accepted = s.accepted := rfl
@[simp] theorem State.setSlot_events (s : State) (i : Nat) (c : Colour) : (s.setSlot i c).events = s.events := rfl
@[simp] theorem State.setSlot_draws (s : State) (i : Nat) (c : Colour) : (s.setSlot i c).draws = s.draws := rfl

@[simp] theorem State.fillRing_ringSize (s : State) : (s.fillRing).ringSize = s.ringSize := rfl
@[simp] theorem State.fillRing_ring (s : State) : (s.fillRing).ring = List.replicate s.ringSize s.fill := rfl
@[simp] theorem State.fillRing_cursor (s : State) : (s.fillRing).cursor = s.cursor := rfl
@[simp] theorem State.fillRing_seq (s : State) : (s.fillRing).seq = s.seq := rfl
@[simp] theorem State.fillRing_primary (s : State) : (s.fillRing).primary = s.primary := rfl
@[simp] theorem State.fillRing_secondary (s : State) : (s.fillRing).secondary = s.secondary := rfl
@[simp] theorem State.fillRing_fill (s : State) : (s.fillRing).fill = s.fill := rfl
@[simp] theorem State.fillRing_brightness (s : State) : (s.fillRing).brightness = s.brightness := rfl
@[simp] theorem State.fillRing_tickValid (s : State) : (s.fillRing).tickValid = s.tickValid := rfl
@[simp] theorem State.fillRing_frameReady (s : State) : (s.fillRing).frameReady = s.frameReady := rfl
@[simp] theorem State.fillRing_encIn (s : State) : (s.fillRing).encIn = s.encIn := rfl
@[simp] theorem State.fillRing_init (s : State) : (s.fillRing).init = s.init := rfl
@[simp] theorem State.fillRing_accepted (s : State) : (s.fillRing).accepted = s.accepted := rfl
@[simp] theorem State.fillRing_events (s : State) : (s.fillRing).events = s.events := rfl
@[simp] theorem State.fillRing_draws (s : State) : (s.fillRing).draws = s.draws := rfl

@[simp] theorem State.paintPrimary_ringSize (s : State) (c : Nat) : (s.paintPrimary c).ringSize = s.ringSize := rfl
@[simp] theorem State.paintPrimary_ring (s : State) (c : Nat) : (s.paintPrimary c).ring = s.ring.set c s.primary := rfl
@[simp] theorem State.paintPrimary_cursor (s : State) (c : Nat) : (s.paintPrimary c).cursor = s.cursor := rfl
@[simp] theorem State.paintPrimary_seq (s : State) (c : Nat) : (s.paintPrimary c).seq = s.seq := rfl
@[simp] theorem State.paintPrimary_primary (s : State) (c : Nat) : (s.paintPrimary c).primary = s.primary := rfl
@[simp] theorem State.paintPrimary_secondary (s : State) (c : Nat) : (s.paintPrimary c).secondary = s.secondary := rfl
@[simp] theorem State.paintPrimary_fill (s : State) (c : Nat) : (s.paintPrimary c).fill = s.fill := rfl
@[simp] theorem State.paintPrimary_brightness (s : State) (c : Nat) : (s.paintPrimary c).brightness = s.brightness := rfl
@[simp] theorem State.paintPrimary_tickValid (s : State) (c : Nat) : (s.paintPrimary c).tickValid = s.tickValid := rfl
@[simp] theorem State.paintPrimary_frameReady (s : State) (c : Nat) : (s.paintPrimary c).frameReady = s.frameReady := rfl
@[simp] theorem State.paintPrimary_encIn (s : State) (c : Nat) : (s.paintPrimary c).encIn = s.encIn := rfl
@[simp] theorem State.paintPrimary_init (s : State) (c : Nat) : (s.paintPrimary c).init = s.init := rfl
@[simp] theorem State.paintPrimary_accepted (s : State) (c : Nat) : (s.paintPrimary c).accepted = s.accepted := rfl
@[simp] theorem State.paintPrimary_events (s : State) (c : Nat) : (s.paintPrimary c).events = s.events := rfl
@[simp] theorem State.paintPrimary_draws (s : State) (c : Nat) : (s.paintPrimary c).draws = s.draws := rfl

@[simp] theorem State.paintSecondary_ringSize (s : State) (c : Nat) : (s.paintSecondary c).ringSize = s.ringSize := rfl
@[simp] theorem State.paintSecondary_ring (s : State) (c : Nat) : (s.paintSecondary c).ring = (((s.ring.set (wrapIndex s.ringSize (c + 1)) s.secondary).set (wrapIndex s.ringSize (c + 2)) s.secondary).set
      (wrapIndex s.ringSize (c - 1)) s.secondary).set (wrapIndex s.ringSize (c - 2)) s.secondary := rfl
@[simp] theorem State.paintSecondary_cursor (s : State) (c : Nat) : (s.paintSecondary c).cursor = s.cursor := rfl
@[simp] theorem State.paintSecondary_seq (s : State) (c : Nat) : (s.paintSecondary c).seq = s.seq := rfl
@[simp] theorem State.paintSecondary_primary (s : State) (c : Nat) : (s.paintSecondary c).primary = s.primary := rfl
@[simp] theorem State.paintSecondary_secondary (s : State) (c : Nat) : (s.paintSecondary c).secondary = s.secondary := rfl
@[simp] theorem State.paintSecondary_fill (s : State) (c : Nat) : (s.paintSecondary c).fill = s.fill := rfl
@[simp] theorem State.paintSecondary_brightness (s : State) (c : Nat) : (s.paintSecondary c).brightness = s.brightness := rfl
@[simp] theorem State.paintSecondary_tickValid (s : State) (c : Nat) : (s.paintSecondary c).tickValid = s.tickValid := rfl
@[simp] theorem State.paintSecondary_frameReady (s : State) (c : Nat) : (s.paintSecondary c).frameReady = s.frameReady := rfl
@[simp] theorem State.paintSecondary_encIn (s : State) (c : Nat) : (s.paintSecondary c).encIn = s.encIn := rfl
@[simp] theorem State.paintSecondary_init (s : State) (c : Nat) : (s.paintSecondary c).init = s.init := rfl
@[simp] theorem State.paintSecondary_accepted (s : State) (c : Nat) : (s.paintSecondary c).accepted = s.accepted := rfl
@[simp] theorem State.paintSecondary_events (s : State) (c : Nat) : (s.paintSecondary c).events = s.events := rfl
@[simp] theorem State.paintSecondary_draws (s : State) (c : Nat) : (s.paintSecondary c).draws = s.draws := rfl

@[simp] theorem State.advanceCursor_ringSize (s : State) (c : Nat) : (s.advanceCursor c).ringSize = s.ringSize := rfl
@[simp] theorem State.advanceCursor_ring (s : State) (c : Nat) : (s.advanceCursor c).ring = s.ring := rfl
@[simp] theorem State.advanceCursor_cursor (s : State) (c : Nat) : (s.advanceCursor c).cursor = wrapIndex s.ringSize (c + 1) := rfl
@[simp] theorem State.advanceCursor_seq (s : State) (c : Nat) : (s.advanceCursor c).seq = s.seq := rfl
@[simp] theorem State.advanceCursor_primary (s : State) (c : Nat) : (s.advanceCursor c).primary = s.primary := rfl
@[simp] theorem State.advanceCursor_secondary (s : State) (c : Nat) : (s.advanceCursor c).secondary = s.secondary := rfl
@[simp] theorem State.advanceCursor_fill (s : State) (c : Nat) : (s.advanceCursor c).fill = s.fill := rfl
@[simp] theorem State.advanceCursor_brightness (s : State) (c : Nat) : (s.advanceCursor c).brightness = s.brightness := rfl
@[simp] theorem State.advanceCursor_tickValid (s : State) (c : Nat) : (s.advanceCursor c).tickValid = s.tickValid := rfl
@[simp] theorem State.advanceCursor_frameReady (s : State) (c : Nat) : (s.advanceCursor c).frameReady = s.frameReady := rfl
@[simp] theorem State.advanceCursor_encIn (s : State) (c : Nat) : (s.advanceCursor c).encIn = s.encIn := rfl
@[simp] theorem State.advanceCursor_init (s : State) (c : Nat) : (s.advanceCursor c).init = s.init := rfl
@[simp] theorem State.advanceCursor_accepted (s : State) (c : Nat) : (s.advanceCursor c).accepted = s.accepted := rfl
@[simp] theorem State.advanceCursor_events (s : State) (c : Nat) : (s.advanceCursor c).events = s.events := rfl
@[simp] theorem State.advanceCursor_draws (s : State) (c : Nat) : (s.advanceCursor c).draws = s.draws := rfl

@[simp] theorem State.updateRing_ringSize (s : State) : (s.updateRing).ringSize = s.ringSize := rfl
@[simp] theorem State.updateRing_ring (s : State) : (s.updateRing).ring = ((s.fillRing.paintPrimary s.cursor).paintSecondary s.cursor).ring := rfl
@[simp] theorem State.updateRing_cursor (s : State) : (s.updateRing).cursor = wrapIndex s.ringSize (s.cursor + 1) := rfl
@[simp] theorem State.updateRing_seq (s : State) : (s.updateRing).seq = s.seq := rfl
@[simp] theorem State.updateRing_primary (s : State) : (s.updateRing).primary = s.primary := rfl
@[simp] theorem State.updateRing_secondary (s : State) : (s.updateRing).secondary = s.secondary := rfl
@[simp] theorem State.updateRing_fill (s : State) : (s.updateRing).fill = s.fill := rfl
@[simp] theorem State.updateRing_brightness (s : State) : (s.updateRing).brightness = s.brightness := rfl
@[simp] theorem State.updateRing_tickValid (s : State) : (s.updateRing).tickValid = s.tickValid := rfl
@[simp] theorem State.updateRing_frameReady (s : State) : (s.updateRing).frameReady = s.frameReady := rfl
@[simp] theorem State.updateRing_encIn (s : State) : (s.updateRing).encIn = s.encIn := rfl
@[simp] theorem State.updateRing_init (s : State) : (s.updateRing).init = s.init := rfl
@[simp] theorem State.updateRing_accepted (s : State) : (s.updateRing).accepted = s.accepted := rfl
@[simp] theorem State.updateRing_events (s : State) : (s.updateRing).events = s.events := rfl
@[simp] theorem State.updateRing_draws (s : State) : (s.updateRing).draws = s.draws := rfl

@[simp] theorem State.beginTick_ringSize (s : State) : (s.beginTick).ringSize = s.ringSize := rfl
@[simp] theorem State.beginTick_ring (s : State) : (s.beginTick).ring = s.updateRing.ring := rfl
@[simp] theorem State.beginTick_cursor (s : State) : (s.beginTick).cursor = wrapIndex s.ringSize (s.cursor + 1) := rfl
@[simp] theorem State.beginTick_seq (s : State) : (s.beginTick).seq = .emit 0 := rfl
@[simp] theorem State.beginTick_primary (s : State) : (s.beginTick).primary = s.primary := rfl
@[simp] theorem State.beginTick_secondary (s : State) : (s.beginTick).secondary = s.secondary := rfl
@[simp] theorem State.beginTick_fill (s : State) : (s.beginTick).fill = s.fill := rfl
@[simp] theorem State.beginTick_brightness (s : State) : (s.beginTick).brightness = s.brightness := rfl
@[simp] theorem State.beginTick_tickValid (s : State) : (s.beginTick).tickValid = false := rfl
@[simp] theorem State.beginTick_frameReady (s : State) : (s.beginTick).frameReady = s.frameReady := rfl
@[simp] theorem State.beginTick_encIn (s : State) : (s.beginTick).encIn = s.encIn := rfl
@[simp] theorem State.beginTick_init (s : State) : (s.beginTick).init = s.init := rfl
@[simp] theorem State.beginTick_accepted (s : State) : (s.beginTick).accepted = s.accepted := rfl
@[simp] theorem State.beginTick_events (s : State) : (s.beginTick).events = s.events := rfl
@[simp] theorem State.beginTick_draws (s : State) : (s.beginTick).draws = s.draws := rfl

@[simp] theorem State.resetBlock_ringSize (s : State) (taken : Bool) : (s.resetBlock taken).ringSize = s.ringSize := rfl
@[simp] theorem State.resetBlock_ring (s : State) (taken : Bool) : (s.resetBlock taken).ring = drawnRing s.ringSize s.draws := rfl
@[simp] theorem State.resetBlock_cursor (s : State) (taken : Bool) : (s.resetBlock taken).cursor = 0 := rfl
@[simp] theorem State.resetBlock_seq (s : State) (taken : Bool) : (s.resetBlock taken).seq = .idle := rfl
@[simp] theorem State.resetBlock_primary (s : State) (taken : Bool) : (s.resetBlock taken).primary = s.primary := rfl
@[simp] theorem State.resetBlock_secondary (s : State) (taken : Bool) : (s.resetBlock taken).secondary = s.secondary := rfl
@[simp] theorem State.resetBlock_fill (s : State) (taken : Bool) : (s.resetBlock taken).fill = s.fill := rfl
@[simp] theorem State.resetBlock_brightness (s : State) (taken : Bool) : (s.resetBlock taken).brightness = s.brightness := rfl
@[simp] theorem State.resetBlock_tickValid (s : State) (taken : Bool) : (s.resetBlock taken).tickValid = s.tickValid := rfl
@[simp] theorem State.resetBlock_frameReady (s : State) (taken : Bool) : (s.resetBlock taken).frameReady = s.frameReady := rfl
@[simp] theorem State.resetBlock_encIn (s : State) (taken : Bool) : (s.resetBlock taken).encIn = s.encIn := rfl
@[simp] theorem State.resetBlock_init (s : State) (taken : Bool) : (s.resetBlock taken).init = s.init := rfl
@[simp] theorem State.resetBlock_accepted (s : State) (taken : Bool) : (s.resetBlock taken).accepted = s.accepted ++ s.takenOnReset taken := rfl
@[simp] theorem State.resetBlock_events (s : State) (taken : Bool) : (s.resetBlock taken).events = s.events := rfl
@[simp] theorem State.resetBlock_draws (s : State) (taken : Bool) : (s.resetBlock taken).draws = s.draws + 1 := rfl

@[simp] theorem State.consumeEvent_ringSize (s : State) : (s.consumeEvent).ringSize = s.ringSize := rfl
@[simp] theorem State.consumeEvent_ring (s : State) : (s.consumeEvent).ring = s.ring := rfl
@[simp] theorem State.consumeEvent_cursor (s : State) : (s.consumeEvent).cursor = s.cursor := rfl
@[simp] theorem State.consumeEvent_seq (s : State) : (s.consumeEvent).seq = s.seq := rfl
@[simp] theorem State.consumeEvent_primary (s : State) : (s.consumeEvent).primary = s.primary := rfl
@[simp] theorem State.consumeEvent_secondary (s : State) : (s.consumeEvent).secondary = s.secondary := rfl
@[simp] theorem State.consumeEvent_fill (s : State) : (s.consumeEvent).fill = s.fill := rfl
@[simp] theorem State.consumeEvent_brightness (s : State) : (s.consumeEvent).brightness = s.brightness := rfl
@[simp] theorem State.consumeEvent_tickValid (s : State) : (s.consumeEvent).tickValid = s.tickValid := rfl
@[simp] theorem State.consumeEvent_frameReady (s : State) : (s.consumeEvent).frameReady = s.frameReady := rfl
@[simp] theorem State.consumeEvent_encIn (s : State) : (s.consumeEvent).encIn = s.encIn := rfl
@[simp] theorem State.consumeEvent_init (s : State) : (s.consumeEvent).init = s.init := rfl
@[simp] theorem State.consumeEvent_accepted (s : State) : (s.consumeEvent).accepted = s.accepted := rfl
@[simp] theorem State.consumeEvent_events (s : State) : (s.consumeEvent).events = s.events.tail := rfl
@[simp] theorem State.consumeEvent_draws (s : State) : (s.consumeEvent).draws = s.draws := rfl

@[simp] theorem State.submit_ringSize (s : State) (k : Nat) (w : Word) : (s.submit k w).ringSize = s.ringSize := by
  unfold State.submit; split <;> rfl
@[simp] theorem State.submit_ring (s : State) (k : Nat) (w : Word) : (s.submit k w).ring = s.ring := by
  unfold State.submit; split <;> rfl
@[simp] theorem State.submit_cursor (s : State) (k : Nat) (w : Word) : (s.submit k w).cursor = s.cursor := by
  unfold State.submit; split <;> rfl
@[simp] theorem State.submit_primary (s : State) (k : Nat) (w : Word) : (s.submit k w).primary = s.primary := by
  unfold State.submit; split <;> rfl
@[simp] theorem State.submit_secondary (s : State) (k : Nat) (w : Word) : (s.submit k w).secondary = s.secondary := by
  unfold State.submit; split <;> rfl
@[simp] theorem State.submit_fill (s : State) (k : Nat) (w : Word) : (s.submit k w).fill = s.fill := by
  unfold State.submit; split <;> rfl
@[simp] theorem State.submit_brightness (s : State) (k : Nat) (w : Word) : (s.submit k w).brightness = s.brightness := by
  unfold State.submit; split <;> rfl
@[simp] theorem State.submit_tickValid (s : State) (k : Nat) (w : Word) : (s.submit k w).tickValid = s.tickValid := by
  unfold State.submit; split <;> rfl
@[simp] theorem State.submit_frameReady (s : State) (k : Nat) (w : Word) : (s.submit k w).frameReady = s.frameReady := by
  unfold State.submit; split <;> rfl
@[simp] theorem State.submit_encIn (s : State) (k : Nat) (w : Word) : (s.submit k w).encIn = s.encIn := by
  unfold State.submit; split <;> rfl
@[simp] theorem State.submit_init (s : State) (k : Nat) (w : Word) : (s.submit k w).init = s.init := by
  unfold State.submit; split <;> rfl
@[simp] theorem State.submit_events (s : State) (k : Nat) (w : Word) : (s.submit k w).events = s.events := by
  unfold State.submit; split <;> rfl
@[simp] theorem State.submit_draws (s : State) (k : Nat) (w : Word) : (s.submit k w).draws = s.draws := by
  unfold State.submit; split <;> rfl

@[simp] theorem State.endInit_ringSize (s : State) (ok : Bool) : (s.endInit ok).ringSize = s.ringSize := by
  unfold State.endInit; split <;> rfl
@[simp] theorem State.endInit_ring (s : State) (ok : Bool) : (s.endInit ok).ring = s.ring := by
  unfold State.endInit; split <;> rfl
@[simp] theorem State.endInit_cursor (s : State) (ok : Bool) : (s.endInit ok).cursor = s.cursor := by
  unfold State.endInit; split <;> rfl
@[simp] theorem State.endInit_seq (s : State) (ok : Bool) : (s.endInit ok).seq = s.seq := by
  unfold State.endInit; split <;> rfl
@[simp] theorem State.endInit_primary (s : State) (ok : Bool) : (s.endInit ok).primary = s.primary := by
  unfold State.endInit; split <;> rfl
@[simp] theorem State.endInit_secondary (s : State) (ok : Bool) : (s.endInit ok).secondary = s.secondary := by
  unfold State.endInit; split <;> rfl
@[simp] theorem State.endInit_fill (s : State) (ok : Bool) : (s.endInit ok).fill = s.fill := by
  unfold State.endInit; split <;> rfl
@[simp] theorem State.endInit_brightness (s : State) (ok : Bool) : (s.endInit ok).brightness = s.brightness := by
  unfold State.endInit; split <;> rfl
@[simp] theorem State.endInit_tickValid (s : State) (ok : Bool) : (s.endInit ok).tickValid = s.tickValid := by
  unfold State.endInit; split <;> rfl
@[simp] theorem State.endInit_frameReady (s : State) (ok : Bool) : (s.endInit ok).frameReady = s.frameReady := by
  unfold State.endInit; split <;> rfl
@[simp] theorem State.endInit_encIn (s : State) (ok : Bool) : (s.endInit ok).encIn = s.encIn := by
  unfold State.endInit; split <;> rfl
@[simp] theorem State.endInit_accepted (s : State) (ok : Bool) : (s.endInit ok).accepted = s.accepted := by
  unfold State.endInit; split <;> rfl
@[simp] theorem State.endInit_events (s : State) (ok : Bool) : (s.endInit ok).events = s.events := by
  unfold State.endInit; split <;> rfl
@[simp] theorem State.endInit_draws (s : State) (ok : Bool) : (s.endInit ok).draws = s.draws := by
  unfold State.endInit; split <;> rfl

/-- The word function reads only the ring size, the ring and the brightness (R24). -/
theorem State.word_congr {s t : State} (hn : t.ringSize = s.ringSize) (hr : t.ring = s.ring) (hb : t.brightness = s.brightness) :
    t.word = s.word := by
  funext k; simp only [State.word, hn, hr, hb]

@[simp] theorem State.consumeEvent_word (s : State) : s.consumeEvent.word = s.word := rfl
@[simp] theorem State.consumeEvent_offered (s : State) : s.consumeEvent.offered = s.offered := rfl
@[simp] theorem State.consumeEvent_tickReady (s : State) : s.consumeEvent.tickReady = s.tickReady := rfl

end Sys2Proof.Machine
end

