-- ==== Sys2Proof/Laws/Ops.lean ====
section
/-! SUPPORT. For each shared operation, what it can do, said once. -/

namespace Sys2Proof.Machine

/-! Indices. -/

theorem wrapIndex_natCast (n a : Nat) : wrapIndex n (a : Int) = a % n := by
  simp only [wrapIndex]; omega

theorem wrapIndex_lt {n : Nat} (h : 1 ≤ n) (a : Int) : wrapIndex n a < n := by
  have h1 := Int.emod_nonneg a (show (n : Int) ≠ 0 by omega)
  have h2 := Int.emod_lt_of_pos a (show (0 : Int) < n by omega)
  simp only [wrapIndex]; omega

/-! The word function. -/

@[simp] theorem State.word_zero (s : State) : s.word 0 = some startWordBits := rfl

theorem State.word_end (s : State) : s.word (s.ringSize + 1) = some endWordBits := by
  simp [State.word]

theorem State.word_led (s : State) {k : Nat} (h1 : 1 ≤ k) (h2 : k ≤ s.ringSize) :
    s.word k = s.ring[k - 1]?.map (encodeColour s.brightness) := by
  simp only [State.word]; rw [if_neg (by omega), if_neg (by omega), if_pos h2]

theorem State.word_past_end (s : State) {k : Nat} (h : s.ringSize + 1 < k) : s.word k = none := by
  simp only [State.word]; rw [if_neg (by omega), if_neg (by omega), if_neg (by omega)]

/-- A word exists only at a position of the transmission. -/
theorem State.le_of_word {s : State} {k : Nat} {w : Word} (h : s.word k = some w) : k ≤ s.ringSize + 1 := by
  by_contra hc
  rw [s.word_past_end (by omega)] at h
  cases h

/-- In a well-formed state a word exists at every position of the transmission. -/
theorem State.Wf.word_isSome {s : State} (h : s.Wf) {k : Nat} (hk : k ≤ s.ringSize + 1) : ∃ w, s.word k = some w := by
  obtain ⟨-, hlen, -, -⟩ := h
  rcases Nat.eq_zero_or_pos k with rfl | h0
  · exact ⟨_, rfl⟩
  · rcases Nat.lt_or_eq_of_le hk with h1 | rfl
    · rw [s.word_led h0 (by omega), List.getElem?_eq_getElem (by omega)]
      exact ⟨_, rfl⟩
    · exact ⟨_, s.word_end⟩

theorem State.offered_emit {s : State} {k : Nat} (h : s.seq = .emit k) : s.offered = s.word k := by
  simp [State.offered, h]

theorem State.offered_idle {s : State} (h : s.seq = .idle) : s.offered = none := by
  simp [State.offered, h]

/-- A word that stands at position `k` of the state's transmission is one that R67 puts there. -/
theorem State.frameAt_word {s : State} {k : Nat} {w : Word} (h : s.word k = some w) : FrameAt s.ringSize k w := by
  have hk := State.le_of_word h
  simp only [FrameAt]
  split_ifs with h0 h1
  · subst h0; simpa using h.symm
  · rw [s.word_led (by omega) h1] at h
    obtain ⟨c, -, rfl⟩ := Option.map_eq_some_iff.1 h
    rw [encodeColour_eq_ledWordBits, markOf_ledWordBits]
  · obtain rfl : k = s.ringSize + 1 := by omega
    simpa [s.word_end] using h.symm

/-! The status outputs. -/

theorem State.tickReady_iff (s : State) : s.tickReady = true ↔ s.seq = .idle := by
  simp [State.tickReady, State.busy]

/-! Submit. -/

/-- What Submit can do: nothing, or the sink takes the offered word and the sequencer moves on. -/
theorem State.submit_cases (s : State) (k : Nat) (w : Word) :
    s.submit k w = s ∨
    (s.seq = .emit k ∧ s.offered = some w ∧ s.frameReady = true ∧
      s.submit k w = { s with accepted := s.accepted ++ [w], seq := nextPhase s.ringSize k }) := by
  unfold State.submit; split
  · rename_i h; exact .inr ⟨h.1, h.2.1, h.2.2, rfl⟩
  · exact .inl rfl

theorem State.submit_accepts {s : State} {k : Nat} {w : Word} (h1 : s.seq = .emit k) (h2 : s.offered = some w)
    (h3 : s.frameReady = true) :
    s.submit k w = { s with accepted := s.accepted ++ [w], seq := nextPhase s.ringSize k } := by
  unfold State.submit; rw [if_pos ⟨h1, h2, h3⟩]

/-! The initialisation collaborator. -/

/-- Initialisation that has ended does not end again. -/
theorem State.endInit_cases (s : State) (ok : Bool) :
    (s.init = .pending ∧ s.endInit ok = { s with init := if ok then .succeeded else .failed }) ∨
    (s.init ≠ .pending ∧ s.endInit ok = s) := by
  unfold State.endInit; split <;> simp_all

/-! The meanings. -/

theorem execTick_busy {s : State} (h0 : s.ringSize ≠ 0) (h : s.seq ≠ .idle) : execTick s = .next { s with tickValid := true } := by
  have : ¬ s.tickReady = true := fun hr => h ((s.tickReady_iff).1 hr)
  simp [execTick, h0, this]

theorem execTick_idle {s : State} (h0 : s.ringSize ≠ 0) (h : s.seq = .idle) : execTick s = .next s.beginTick := by
  simp [execTick, h0, (s.tickReady_iff).2 h]

/-- What a frame word can do: nothing, or the sink takes the offered word and the sequencer moves on. -/
def FrameWordEffect (s t : State) : Prop :=
  t = s ∨ ∃ k w, s.seq = .emit k ∧ s.offered = some w ∧ s.frameReady = true ∧
    t = { s with accepted := s.accepted ++ [w], seq := nextPhase s.ringSize k }

theorem State.submit_effect (s : State) (k : Nat) (w : Word) : FrameWordEffect s (s.submit k w) := by
  rcases s.submit_cases k w with h | ⟨h1, h2, h3, h4⟩
  · exact .inl h
  · exact .inr ⟨k, w, h1, h2, h3, h4⟩

theorem execStart_effect (s : State) : ∃ t, execStart s = .next t ∧ FrameWordEffect s t := ⟨_, rfl, s.submit_effect _ _⟩

theorem execEnd_effect (s : State) : ∃ t, execEnd s = .next t ∧ FrameWordEffect s t := ⟨_, rfl, s.submit_effect _ _⟩

theorem execLed_effect (bri : BitVec 5) (b g r : Byte) (s : State) :
    ∃ t, execLed bri b g r s = .next t ∧ FrameWordEffect s t := by
  unfold execLed; split
  · exact ⟨_, rfl, .inl rfl⟩
  · split
    · exact ⟨_, rfl, s.submit_effect _ _⟩
    · exact ⟨_, rfl, .inl rfl⟩

end Sys2Proof.Machine
end

