-- ==== Sys2Proof/Laws/Step.lean ====
section
/-! SUPPORT. What one step can do, said once (the inversion lemma of `step`). -/

namespace Sys2Proof.Machine

/-- The effect of one step on `u`, the state whose next event is consumed. `e?` is that event, none when no event was listed. -/
inductive StepEffect (e? : Option Event) (u : State) : State → Prop where
  /-- Nothing is enabled, or the host waits. -/
  | hold : StepEffect e? u u
  /-- ENCODE: the encoder bus is driven. -/
  | encode (w : Word) (h : e? = some (.driveEncoder w)) : StepEffect e? u { u with encIn := w }
  /-- A tick request is accepted in IDLE. -/
  | beginTick (hseq : u.seq = .idle) (hreq : u.tickValid = true ∨ (e? = some .requestTick ∧ u.init = .succeeded)) :
      StepEffect e? u u.beginTick
  /-- A tick request is held while the block is busy. -/
  | holdRequest (hseq : u.seq ≠ .idle) (he : e? = some .requestTick) (hinit : u.init = .succeeded) :
      StepEffect e? u { u with tickValid := true }
  /-- The sink accepts the offered word. -/
  | accept (k : Nat) (w : Word) (hseq : u.seq = .emit k) (hword : u.word k = some w) (hready : u.frameReady = true)
      (he : e? = none ∨ e? = some .advance) :
      StepEffect e? u { u with accepted := u.accepted ++ [w], seq := nextPhase u.ringSize k }
  /-- The sink drives `frame_ready`. -/
  | sinkReady (ready : Bool) (he : e? = some (.sinkReady ready)) : StepEffect e? u { u with frameReady := ready }
  /-- Reset. -/
  | reset (taken : Bool) (he : e? = some (.reset taken)) : StepEffect e? u (u.resetBlock taken)
  /-- Initialisation ends. -/
  | endInit (ok : Bool) (he : e? = some (.initialise ok)) : StepEffect e? u (u.endInit ok)

/-- The bytes of a word at the encoder port decode to the operation whose bus is that word. -/
theorem decode_encoderPort_wordBytes (w : Word) :
    decode .encoderPort (wordBytes w) = .ok (.encode (byte3Of w).toNat (redOf w).toNat (greenOf w).toNat (blueOf w).toNat) := by
  simp [decode, decodeEncoderPort]

theorem encoderBus_fields (w : Word) :
    encoderBus (byte3Of w).toNat (redOf w).toNat (greenOf w).toNat (blueOf w).toNat = w := by
  simp only [encoderBus, BitVec.ofNat_toNat, BitVec.setWidth_eq, append_bytes]

theorem decode_command_request : decode .command [0x01#8] = .ok .tick := rfl

/-- An offered word is decoded at its position to the operation that submits exactly it. -/
theorem perform_offered {u : State} {k : Nat} {w : Word} (hseq : u.seq = .emit k) (hw : u.word k = some w)
    (hready : u.frameReady = true) :
    perform (.present (.frameStream u.ringSize k) (wordBytes w)) u =
      .next { u with accepted := u.accepted ++ [w], seq := nextPhase u.ringSize k } := by
  have hoff : u.offered = some w := by rw [State.offered_emit hseq, hw]
  have hf := State.frameAt_word hw
  have hk := State.le_of_word hw
  simp only [perform, decode, ofWordBytes_wordBytes, decodeFrame]
  simp only [FrameAt] at hf
  split_ifs at hf ⊢ with h0 h1 h2
  · subst h0; subst hf
    simp only [exec, execStart, State.submit_accepts hseq hoff hready]
  · have hlw : ledWordBits (briOf w) (blueOf w) (greenOf w) (redOf w) = w := by
      conv_rhs => rw [← append_fields w]
      rw [hf, ledWordBits]
    simp only [exec, execLed, hseq, hlw]
    rw [if_pos ⟨by omega, h1⟩, State.submit_accepts hseq hoff hready]
  · subst hf; subst h2
    simp only [exec, execEnd, State.submit_accepts hseq hoff hready]
  · omega

/-- The block's own move: what it can do. -/
theorem blockMove_effect {e? : Option Event} {s u t : State} (hN : u.ringSize ≠ 0) (hs : s.blockMove = u.blockMove)
    (he : e? = none ∨ e? = some .advance) (h : perform s.blockMove u = .next t) : StepEffect e? u t := by
  rw [hs] at h
  unfold State.blockMove at h
  split at h
  · rename_i hseq
    split at h
    · rename_i hreq
      simp only [perform, decode_command_request, exec, execTick_idle hN hseq] at h
      obtain rfl := Host.Outcome.next.inj h
      exact .beginTick hseq (.inl hreq)
    · obtain rfl := Host.Outcome.next.inj h; exact .hold
  · rename_i k hseq
    split at h
    · rename_i hready
      cases hw : u.word k with
      | none =>
        have hoff : u.offered = none := by rw [State.offered_emit hseq, hw]
        simp [perform, State.offeredBytes, hoff, decode, ofWordBytes] at h
      | some w =>
        have hoff : u.offered = some w := by rw [State.offered_emit hseq, hw]
        simp only [State.offeredBytes, hoff] at h
        rw [perform_offered hseq hw hready] at h
        obtain rfl := Host.Outcome.next.inj h
        exact .accept k w hseq hw hready he
    · obtain rfl := Host.Outcome.next.inj h; exact .hold

/-- The inversion lemma of `step`: if it answers a next state, the ring is not empty and one of the effects above happened. -/
theorem step_effect {s t : State} (h : step s = .next t) : s.ringSize ≠ 0 ∧ StepEffect s.events.head? s.consumeEvent t := by
  unfold step at h
  split at h
  · cases h
  · rename_i hN
    refine ⟨hN, ?_⟩
    have hNu : s.consumeEvent.ringSize ≠ 0 := hN
    unfold State.nextMove at h
    cases hev : s.events with
    | nil =>
      rw [hev] at h
      exact blockMove_effect (s := s) hNu rfl (.inl rfl) h
    | cons e es =>
      rw [hev] at h
      simp only [List.head?_cons]
      cases e with
      | advance => exact blockMove_effect (s := s) hNu rfl (.inr rfl) h
      | requestTick =>
        simp only [State.eventMove] at h
        split at h
        · rename_i hinit
          simp only [perform, decode_command_request, exec] at h
          by_cases hseq : s.consumeEvent.seq = .idle
          · rw [execTick_idle hNu hseq] at h
            obtain rfl := Host.Outcome.next.inj h
            exact .beginTick hseq (.inr ⟨rfl, hinit⟩)
          · rw [execTick_busy hNu hseq] at h
            obtain rfl := Host.Outcome.next.inj h
            exact .holdRequest hseq rfl hinit
        · cases h
      | driveEncoder w =>
        simp only [State.eventMove, perform, decode_encoderPort_wordBytes, exec, execEncode, encoderBus_fields] at h
        obtain rfl := Host.Outcome.next.inj h
        exact .encode w rfl
      | sinkReady ready => obtain rfl := Host.Outcome.next.inj h; exact .sinkReady ready rfl
      | reset taken => obtain rfl := Host.Outcome.next.inj h; exact .reset taken rfl
      | initialise ok => obtain rfl := Host.Outcome.next.inj h; exact .endInit ok rfl
      | wait ms => obtain rfl := Host.Outcome.next.inj h; exact .hold

/-- A property that each effect keeps is kept by each step. -/
theorem step_keeps {P : State → Prop} (hconsume : ∀ s : State, P s → P s.consumeEvent)
    (heffect : ∀ {e? : Option Event} {u t : State}, u.ringSize ≠ 0 → StepEffect e? u t → P u → P t)
    {s t : State} (h : step s = .next t) (hs : P s) : P t :=
  heffect (u := s.consumeEvent) (step_effect h).1 (step_effect h).2 (hconsume s hs)

end Sys2Proof.Machine
end

