-- ==== Sys2Proof/Laws/Fetch.lean ====
section
/-! SUPPORT. A table word that is presented is the very next operation the machine executes. -/

namespace Sys2Proof.Machine

theorem State.head_blockMovesNext (s : State) : s.blockMovesNext.head? = none ∨ s.blockMovesNext.head? = some .advance := by
  unfold State.blockMovesNext; split <;> simp

/-- When the next event leaves the move to the block, the next move is the block's own. -/
theorem State.nextMove_of_advance {s : State} (h : s.events.head? = none ∨ s.events.head? = some .advance) : s.nextMove = s.blockMove := by
  unfold State.nextMove
  cases he : s.events with
  | nil => rfl
  | cons e es => rw [he] at h; simp at h; subst h; rfl

/-- A step whose next move presents bytes that decode executes what they decode to. -/
theorem step_of_present {s : State} {iface : Interface} {bytes : List Byte} {i : Instr} (hN : s.ringSize ≠ 0)
    (hm : s.nextMove = .present iface bytes) (hd : decode iface bytes = .ok i) : step s = exec i s.consumeEvent := by
  simp only [step, if_neg hN, hm, perform, hd]

theorem decode_of_decodeTableWord {nbits w : Nat} {i : Instr} (h : decodeTableWord nbits w = some i) :
    decode (tableInterface nbits w) (tableBytes nbits w) = .ok i := by
  unfold decodeTableWord at h
  split at h
  · rename_i j hj; rw [hj, Option.some.inj h]
  · cases h

/-- Executing a word placed at a frame-stream position: the block offers exactly that word there. -/
theorem step_of_offering {s : State} {k : Nat} {w : Word} {i : Instr} (hN : s.ringSize ≠ 0) (hseq : s.seq = .emit k)
    (hready : s.frameReady = true) (hword : s.word k = some w) (he : s.events.head? = none ∨ s.events.head? = some .advance)
    (hd : decode (.frameStream s.ringSize k) (wordBytes w) = .ok i) : step s = exec i s.consumeEvent := by
  refine step_of_present hN ?_ hd
  rw [State.nextMove_of_advance he]
  simp [State.blockMove, hseq, hready, State.offeredBytes, State.offered_emit hseq, hword]

/-- The table word that the decoder reads as `i` is, when presented, executed by the very next step. -/
theorem step_withFetchWord (s : State) {nbits w : Nat} {i : Instr} (h : decodeTableWord nbits w = some i) :
    step (s.withFetchWord nbits w) = exec i (s.withFetchWord nbits w).consumeEvent := by
  have hd := decode_of_decodeTableWord h
  have hmax : max 1 s.ringSize ≠ 0 := by omega
  have hb := s.head_blockMovesNext
  unfold State.withFetchWord State.presentWord
  unfold tableInterface tableBytes at hd
  unfold tableInterface
  by_cases h8 : nbits ≤ 8
  · simp only [if_pos h8] at hd ⊢
    simp only [decode, decodeCommand] at hd
    split at hd
    · rename_i hbit
      obtain rfl := Except.ok.inj hd
      refine step_of_present hmax ?_ decode_command_request
      rw [State.nextMove_of_advance hb]
      simp only [State.blockMove, hbit, if_true]
    · cases hd
  · simp only [if_neg h8] at hd ⊢
    by_cases h0 : BitVec.ofNat 32 w = startWordBits
    · simp only [if_pos h0] at hd ⊢
      refine step_of_offering hmax rfl rfl rfl hb ?_
      rw [h0] at hd; exact hd
    · simp only [if_neg h0] at hd ⊢
      by_cases h1 : BitVec.ofNat 32 w = endWordBits
      · simp only [if_pos h1] at hd ⊢
        rw [if_neg (by decide), if_neg (by decide)]
        refine step_of_offering (k := max 1 s.ringSize + 1) (w := endWordBits) hmax rfl rfl (State.word_end _) hb ?_
        rw [h1] at hd
        simp only [decode, ofWordBytes_wordBytes, decodeFrame] at hd ⊢
        rw [if_neg (Nat.succ_ne_zero _), if_neg (show ¬ max 1 s.ringSize + 1 ≤ s.withSlot.ringSize from Nat.not_succ_le_self _),
          if_pos (show max 1 s.ringSize + 1 = s.withSlot.ringSize + 1 from rfl)]
        exact hd
      · simp only [if_neg h1] at hd ⊢
        by_cases h7 : markOf (BitVec.ofNat 32 w) = 0b111#3
        · simp only [if_pos h7] at hd ⊢
          rw [if_neg (by decide), if_pos (by decide)]
          refine step_of_offering (k := 1) (w := BitVec.ofNat 32 w) hmax rfl rfl ?_ hb ?_
          · rw [State.word_led _ (Nat.le_refl 1) (by show 1 ≤ max 1 s.ringSize; omega)]
            simp only [Nat.sub_self, List.getElem?_cons_zero, Option.map_some, encodeColour_eq_ledWordBits]
            congr 1
            conv_rhs => rw [← append_fields (BitVec.ofNat 32 w)]
            rw [h7, ledWordBits]
            congr 4
            apply BitVec.eq_of_getLsbD_eq
            intro j hj
            simp only [BitVec.getLsbD_setWidth, hj, decide_true, Bool.true_and, show j < 8 by omega]
          · simp only [decode, ofWordBytes_wordBytes, decodeFrame] at hd ⊢
            rw [if_neg (by decide), if_pos (by show 1 ≤ max 1 s.ringSize; omega)]
            rw [if_neg (by decide), if_pos (by decide)] at hd
            exact hd
        · simp only [if_neg h7] at hd ⊢
          exact step_of_present hmax rfl hd

end Sys2Proof.Machine
end

