-- ==== Sys2Proof/Laws/PerInstr.lean ====
section
/-! SUPPORT. Statements made once per operation. -/

namespace Sys2Proof.Laws

/-- "Every frame-stream word is exactly 32 bits, and every encoder input is exactly 32 bits" (R73); a command is one bit in one byte (R65). -/
def EncodedLength.Statement : Instr → Prop
  | .encode bri r g b => (encode (.encode bri r g b)).length = 4
  | .tick => (encode .tick).length = 1
  | .startWord => (encode .startWord).length = 4
  | .led bri b g r => (encode (.led bri b g r)).length = 4
  | .endWord => (encode .endWord).length = 4

theorem EncodedLength.encode (bri r g b : Nat) : EncodedLength.Statement (.encode bri r g b) := rfl
theorem EncodedLength.tick : EncodedLength.Statement .tick := rfl
theorem EncodedLength.startWord : EncodedLength.Statement .startWord := rfl
theorem EncodedLength.led (bri : BitVec 5) (b g r : Byte) : EncodedLength.Statement (.led bri b g r) := rfl
theorem EncodedLength.endWord : EncodedLength.Statement .endWord := rfl

/-- Every operation has an interface that carries it (R69). -/
def HasInterface.Statement (i : Instr) : Prop := ∃ iface : Interface, iface.Carries i

theorem HasInterface.encode (bri r g b : Nat) : HasInterface.Statement (.encode bri r g b) := ⟨.encoderPort, trivial⟩
theorem HasInterface.tick : HasInterface.Statement .tick := ⟨.command, trivial⟩
theorem HasInterface.startWord : HasInterface.Statement .startWord := ⟨.frameStream 1 0, rfl⟩
theorem HasInterface.led (bri : BitVec 5) (b g r : Byte) : HasInterface.Statement (.led bri b g r) := ⟨.frameStream 1 1, ⟨Nat.le_refl 1, Nat.le_refl 1⟩⟩
theorem HasInterface.endWord : HasInterface.Statement .endWord := ⟨.frameStream 1 2, rfl⟩

end Sys2Proof.Laws
end

