-- ==== Sys2Proof/Laws/Run.lean ====
section
/-! SUPPORT. What a run of several steps is, said once: its first step, its parts, and a state that every step leaves. -/

namespace Sys2Proof.Machine

/-- A run goes on from the state its first step answers. -/
theorem run_succ_of_next {s t : State} (h : step s = .next t) (m : Nat) :
    Host.Core.run Sys2Proof.core (m + 1) s = Host.Core.run Sys2Proof.core m t := by
  have h' : Sys2Proof.core.step s = .next t := h
  simp only [Host.Core.run, h']

/-- A run stops where its first step is refused. -/
theorem run_succ_of_refused {s : State} {reason : Refusal} (h : step s = .refused reason) (m : Nat) :
    Host.Core.run Sys2Proof.core (m + 1) s = .refused reason := by
  have h' : Sys2Proof.core.step s = .refused reason := h
  simp only [Host.Core.run, h']

/-- A run that answers a next state took a first step, and goes on from its state. -/
theorem step_of_run_succ {s t : State} {m : Nat} (h : Host.Core.run Sys2Proof.core (m + 1) s = .next t) :
    ∃ u : State, step s = .next u ∧ Host.Core.run Sys2Proof.core m u = .next t := by
  cases hs : step s with
  | next u => rw [run_succ_of_next hs] at h; exact ⟨u, rfl, h⟩
  | fault f => cases f
  | refused r => rw [run_succ_of_refused hs] at h; cases h

/-- A run of `a + b` steps is a run of `b` steps after one of `a` steps. -/
theorem run_add_of_next {a b : Nat} {s t : State} (h : Host.Core.run Sys2Proof.core a s = .next t) :
    Host.Core.run Sys2Proof.core (a + b) s = Host.Core.run Sys2Proof.core b t := by
  induction a generalizing s with
  | zero => obtain rfl : s = t := Host.Outcome.next.inj h; rw [Nat.zero_add]
  | succ a ih =>
    obtain ⟨u, hu, hr⟩ := step_of_run_succ h
    rw [Nat.succ_add, run_succ_of_next hu]; exact ih hr

/-- A state that its step leaves is left by every run. -/
theorem run_of_step_self {s : State} (h : step s = .next s) (m : Nat) : Host.Core.run Sys2Proof.core m s = .next s := by
  induction m with
  | zero => rfl
  | succ m ih => rw [run_succ_of_next h, ih]

/-- A property that each step keeps holds at the end of a run. -/
theorem run_keeps {P : State → Prop} (hstep : ∀ {s t : State}, step s = .next t → P s → P t) {m : Nat} {s t : State}
    (h : Host.Core.run Sys2Proof.core m s = .next t) (hs : P s) : P t := by
  induction m generalizing s with
  | zero => obtain rfl : s = t := Host.Outcome.next.inj h; exact hs
  | succ m ih => obtain ⟨u, hu, hr⟩ := step_of_run_succ h; exact ih hr (hstep hu hs)

end Sys2Proof.Machine
end

