-- ==== Sys2Proof/Tests/Slice0.lean ====
section
/-! SUPPORT. The model's own tests. Expected values are those of spec/95_test_vectors.md (named at each test) or are computed by hand from the
rule named. `test_` theorems check behaviour; `wit_<statement>` theorems show a state and operands that meet all hypotheses of
Obligations.<statement> together. -/

namespace Sys2Proof.Tests

open Sys2Proof.Machine

/-- The next state of an outcome, if it is one. -/
def nextOf (o : Host.Outcome State Fault Refusal) : Option State :=
  match o with
  | .next s => some s
  | .fault _ => none
  | .refused _ => none

/-- The refusal of an outcome, if it is one. -/
def refusalOf (o : Host.Outcome State Fault Refusal) : Option Refusal :=
  match o with
  | .next _ => none
  | .fault _ => none
  | .refused r => some r

/-- The reference configuration in IDLE, initialised, with a ready sink and a ring of `(1,2,3)` as in T5. -/
def base : State :=
  { State.reset with ring := List.replicate 12 ⟨1, 2, 3⟩, init := .succeeded, frameReady := true }

/-- `base` at cursor `c`. -/
def atCursor (c : Nat) : State := { base with cursor := c }

/-- The state in which the tick that starts at cursor 0 offers `word(k)` (T1). -/
def offering (k : Nat) : State := { base.beginTick with seq := .emit k }

/-- Word `k` is offered to a sink that is not ready, and `es` comes next. -/
def held (k : Nat) (es : List Event) : State := { offering k with frameReady := false, events := es }

/-- A ring of `n` slots, in IDLE. -/
def small (n : Nat) : State := { base with ringSize := n, ring := List.replicate n ⟨1, 2, 3⟩ }

/-! ## Decoding: words written out from R60, R62, R63, R65, R66 -/

/-- E6: brightness 1, (0x12, 0x34, 0x56), bus `0x01563412`. -/
theorem test_decode_encode : decode .encoderPort [0x01, 0x56, 0x34, 0x12] = .ok (.encode 1 0x12 0x34 0x56) := by rfl
/-- R65: `tick_valid = 1`. -/
theorem test_decode_tick : decode .command [0b00000001] = .ok .tick := by rfl
/-- R72: `tick_valid = 0`. -/
theorem test_decode_no_request : decode .command [0b00000000] = .error .noRequest := by rfl
/-- K1: `0x00000000` at position 0. -/
theorem test_decode_start : decode (.frameStream 12 0) [0, 0, 0, 0] = .ok .startWord := by rfl
/-- K2: `0xEF0000FF` at position 1: mark 111, brightness 01111, blue 0, green 0, red 255. -/
theorem test_decode_led : decode (.frameStream 12 1) [0b11101111, 0x00, 0x00, 0xFF] = .ok (.led 15 0 0 255) := by rfl
/-- K4: `0xFFFFFFFF` at position 5 is an LED frame. -/
theorem test_decode_white_led : decode (.frameStream 12 5) [0xFF, 0xFF, 0xFF, 0xFF] = .ok (.led 31 255 255 255) := by rfl
/-- K3: `0xFFFFFFFF` at position 13 is END. -/
theorem test_decode_end : decode (.frameStream 12 13) [0xFF, 0xFF, 0xFF, 0xFF] = .ok .endWord := by rfl
/-- K5: `0x00000000` cannot occur at position 7. -/
theorem test_decode_zero_led : decode (.frameStream 12 7) [0, 0, 0, 0] = .error .notLedFrame := by rfl
/-- K6: `0x8F8000FF` has bits 31:29 = 100. -/
theorem test_decode_bad_mark : decode (.frameStream 12 3) [0x8F, 0x80, 0x00, 0xFF] = .error .notLedFrame := by rfl
/-- R67: a transmission of N = 12 has positions 0 to 13. -/
theorem test_decode_past_end : decode (.frameStream 12 14) [0xFF, 0xFF, 0xFF, 0xFF] = .error .noSuchPosition := by rfl
/-- R73: no shorter form. -/
theorem test_decode_short : decode (.frameStream 12 0) [0, 0, 0] = .error .wrongLength := by rfl
/-- R40: bit 31 goes first; `0x80000001` begins and ends with a one. -/
theorem test_wire_bits : wireBits 0x80000001 = true :: (List.replicate 30 false ++ [true]) := by decide

/-! ## WellFormed: one ill-formed term for each check -/

theorem test_ill_formed_brightness : (Instr.encode 256 0 0 0).wellFormed = false := by decide
theorem test_ill_formed_red : (Instr.encode 0 256 0 0).wellFormed = false := by decide
theorem test_ill_formed_green : (Instr.encode 0 0 256 0).wellFormed = false := by decide
theorem test_ill_formed_blue : (Instr.encode 0 0 0 256).wellFormed = false := by decide
theorem test_well_formed_encode : (Instr.encode 255 255 255 255).wellFormed = true := by decide
theorem test_ring_size_zero : ¬ Config.RingSizeOk 0 := by decide

/-! ## The table words and their first step -/

theorem test_table_tick : decodeTableWord 8 0x1 = some .tick := by decide
theorem test_table_start : decodeTableWord 32 0x00000000 = some .startWord := by decide
theorem test_table_led : decodeTableWord 32 0xE0000000 = some (.led 0 0 0 0) := by decide
theorem test_table_end : decodeTableWord 32 0xFFFFFFFF = some .endWord := by decide
theorem test_table_encode : decodeTableWord 32 0x0F8000FF = some (.encode 15 255 0 128) := by decide

theorem test_first_step_tick : (nextOf (step (State.reset.withFetchWord 8 0x1))).map State.seq = some (.emit 0) := by decide
theorem test_first_step_start :
    (nextOf (step (State.reset.withFetchWord 32 0))).map State.accepted = some [0x00000000] := by decide
theorem test_first_step_led :
    (nextOf (step (State.reset.withFetchWord 32 0xEF8000FF))).map State.accepted = some [0xEF8000FF] := by decide
theorem test_first_step_end :
    (nextOf (step (State.reset.withFetchWord 32 0xFFFFFFFF))).map (fun s => (s.accepted, s.seq)) = some ([0xFFFFFFFF], .idle) := by
  decide
theorem test_first_step_encode :
    (nextOf (step (State.reset.withFetchWord 32 0x0F8000FF))).map State.encFrame = some 0xEF8000FF := by decide

/-! ## ENCODE (E3, E13) -/

/-- E3, the corrected W1. -/
theorem test_encode_example : (nextOf (exec (.encode 15 255 0 128) base)).map State.encFrame = some 0xEF8000FF := by decide
/-- E13, wide operands. -/
theorem test_encode_wide : (nextOf (exec (.encode 47 257 512 511) base)).map State.encFrame = some 0xEFFF0001 := by decide

/-! ## TICK (T2 at cursors 0 and 11, T4) -/

/-- T1, W7: P S S F F F F F F F S S, cursor 1. -/
theorem test_tick_at_zero :
    (nextOf (exec .tick (atCursor 0))).map (fun s => (s.ring.map (encodeColour s.brightness), s.cursor, s.seq)) =
      some ([0xEF0000FF, 0xEFFF00FF, 0xEFFF00FF, 0xEFFFFF00, 0xEFFFFF00, 0xEFFFFF00, 0xEFFFFF00, 0xEFFFFF00, 0xEFFFFF00, 0xEFFFFF00,
        0xEFFF00FF, 0xEFFF00FF], 1, .emit 0) := by decide
/-- T2, row c = 11: S S F F F F F F F S S P, cursor 0. -/
theorem test_tick_at_eleven :
    (nextOf (exec .tick (atCursor 11))).map (fun s => (s.ring.map (encodeColour s.brightness), s.cursor)) =
      some ([0xEFFF00FF, 0xEFFF00FF, 0xEFFFFF00, 0xEFFFFF00, 0xEFFFFF00, 0xEFFFFF00, 0xEFFFFF00, 0xEFFFFF00, 0xEFFFFF00, 0xEFFF00FF,
        0xEFFF00FF, 0xEF0000FF], 0) := by decide
/-- T4, N = 2: the primary is overwritten. -/
theorem test_tick_two_slots :
    (nextOf (exec .tick (small 2))).map (fun s => (s.ring, s.cursor)) = some ([Config.secondary, Config.secondary], 1) := by decide
/-- T4, N = 0. -/
theorem test_tick_no_slot : refusalOf (exec .tick (small 0)) = some .emptyRing := by decide

/-! ## START, LED, END (Q3, Q4, Q6) -/

/-- Q4. -/
theorem test_start_accepted :
    (nextOf (exec .startWord (offering 0))).map (fun s => (s.seq, s.offered, s.accepted)) =
      some (.emit 1, some 0xEF0000FF, [0x00000000]) := by decide
/-- Q3. -/
theorem test_start_held :
    (nextOf (exec .startWord { offering 0 with frameReady := false })).map (fun s => (s.seq, s.offered)) =
      some (.emit 0, some 0x00000000) := by decide
/-- T1: slot 2 is secondary, word 3. -/
theorem test_led_accepted :
    (nextOf (exec (.led 15 255 0 255) (offering 3))).map (fun s => (s.seq, s.accepted)) = some (.emit 4, [0xEFFF00FF]) := by decide
/-- T1: slot 2 is not the primary, so the primary's frame is not the offered word. -/
theorem test_led_not_offered :
    (nextOf (exec (.led 15 0 0 255) (offering 3))).map (fun s => (s.seq, s.accepted)) = some (.emit 3, []) := by decide
/-- Q6. -/
theorem test_end_accepted :
    (nextOf (exec .endWord (offering 13))).map (fun s => (s.seq, s.tickReady, s.offered)) = some (.idle, true, none) := by decide
/-- R67: END's word is not END at position 12. -/
theorem test_end_elsewhere : (nextOf (exec .endWord (offering 12))).map State.seq = some (.emit 12) := by decide

/-! ## Steps of the other agents (Q1, Q5, Q8, Q9, R186) -/

/-- Q1. -/
theorem test_idle_stays : nextOf (step base) = some base := by decide
/-- Q5. -/
theorem test_request_waits :
    (nextOf (step { offering 5 with events := [.requestTick] })).map (fun s => (s.seq, s.offered, s.tickValid)) =
      some (.emit 5, some 0xEFFFFF00, true) := by decide
/-- Q8. -/
theorem test_reset : (nextOf (step { offering 5 with events := [.reset false] })).map (fun s => (s.seq, s.cursor, s.accepted)) =
    some (.idle, 0, []) := by decide
/-- Q9: the word that the reset coincides with counts as accepted, if the sink says so. -/
theorem test_reset_taken : (nextOf (step { offering 4 with events := [.reset true] })).map (fun s => (s.seq, s.accepted)) =
    some (.idle, [0xEFFFFF00]) := by decide
/-- R186: no tick before initialisation has succeeded. -/
theorem test_early_request : refusalOf (step { State.reset with events := [.requestTick] }) = some .tickBeforeInitialisation := by decide
/-- R167: a failed initialisation stays failed. -/
theorem test_failed_init : (nextOf (step { base with init := .failed, events := [.initialise true] })).map State.init = some .failed := by
  decide

/-! ## Witnesses -/

theorem wit_DecodeInvertsEncode :
    (Instr.encode 255 255 255 255).WellFormed ∧ Interface.encoderPort.Carries (.encode 255 255 255 255) ∧
    Interface.command.Carries .tick ∧ (Interface.frameStream 12 0).Carries .startWord ∧
    (Interface.frameStream 12 1).Carries (.led 31 255 0 0) ∧ (Interface.frameStream 12 12).Carries (.led 0 0 0 0) ∧
    (Interface.frameStream 12 13).Carries .endWord := by decide

theorem wit_EncodeInvertsDecode :
    decode .encoderPort [0xFF, 3, 2, 1] = .ok (.encode 255 1 2 3) ∧ decode .command [1] = .ok .tick ∧
    decode (.frameStream 12 12) [0xE0, 0, 0, 0] = .ok (.led 0 0 0 0) := ⟨rfl, rfl, rfl⟩

theorem wit_ClassifiedByPosition : (1 ≤ 1 ∧ 1 ≤ 1) ∧ (1 ≤ 12 ∧ 12 ≤ 12) ∧ decode (.frameStream 12 0) [0, 0, 0, 0] = .ok .startWord :=
  ⟨by decide, by decide, rfl⟩

/-- P7: white primary at brightness 255, slot 0; and the last slot. -/
theorem wit_EndWordCollision :
    (255 &&& 0x1F = 31) ∧
    ({ offering 1 with ring := List.replicate 12 ⟨255, 255, 255⟩, brightness := 255 } : State).ring[1 - 1]? = some ⟨255, 255, 255⟩ ∧
    ({ offering 12 with ring := List.replicate 12 ⟨255, 255, 255⟩, brightness := 255 } : State).ring[12 - 1]? = some ⟨255, 255, 255⟩ ∧
    (offering 12).seq = .emit 12 ∧ (offering 12).frameReady = true ∧ 12 ≤ (offering 12).ringSize := by decide

theorem wit_EncodeIsABijection : markOf 0xE0000000 = 0b111 ∧ markOf 0xFFFFFFFF = 0b111 := by decide

theorem wit_EncoderPortFunction :
    (0xE0000001 : Word).extractLsb' 0 29 = ({ base with encIn := 0x00000001 } : State).encIn.extractLsb' 0 29 := by decide

theorem wit_EncoderPortIsIndependent : ∃ t, step base = .next t ∧ ∀ w : Word, base.events.head? ≠ some (.driveEncoder w) :=
  ⟨_, rfl, fun _ h => by cases h⟩

theorem wit_FillStep :
    0 < base.ringSize ∧ 11 < base.ringSize ∧ base.ring.length = base.ringSize ∧ (List.range 12).reverse.Perm (List.range base.ringSize) ∧
    (atCursor 3).ringSize = base.ringSize ∧ (atCursor 3).fill = base.fill := by decide

theorem wit_PrimaryStep : 0 < base.ringSize ∧ 11 < base.ringSize ∧ 0 ≠ 11 := by decide

theorem wit_SecondaryStep :
    11 < base.ringSize ∧ (small 2).ring.length = (small 2).ringSize ∧ 1 < (small 2).ringSize ∧ 1 ∈ secondarySlots (small 2).ringSize 1 := by
  decide

theorem wit_ModuloOfNegativeOffsets : (0 < 1 ∧ (1 = 1 ∨ 1 = 2)) ∧ (11 < 12 ∧ (2 = 1 ∨ 2 = 2)) := by decide

theorem wit_RingAfterTheUpdate :
    (atCursor 0).Wf ∧ (atCursor 11).Wf ∧ (small 1).Wf ∧ (small 4).Wf ∧ 5 ≤ (small 5).ringSize ∧ (small 5).Wf := by decide

theorem wit_SmallRingsLastWriteWins :
    (small 1).Wf ∧ (small 2).Wf ∧ (small 3).Wf ∧ (small 4).Wf ∧ (small 5).Wf ∧ (small 6).Wf ∧ 3 < 4 ∧ 4 < 5 ∧
    (secondarySlots 12 11).reverse.Perm (secondarySlots 12 11) := by decide

theorem wit_CursorAdvances :
    ((atCursor 11).Wf ∧ (atCursor 11).seq = .idle ∧ (atCursor 11).ringSize = 12) ∧ ((atCursor 10).Wf ∧ (atCursor 10).seq = .idle) ∧
    ((offering 13).seq ≠ .idle ∧ ∃ t, step (offering 13) = .next t) :=
  ⟨by decide, by decide, by decide, _, rfl⟩

theorem wit_TickBegins : ((atCursor 0).Wf ∧ (atCursor 0).seq = .idle) ∧ ((atCursor 11).Wf ∧ (atCursor 11).seq = .idle) := by decide

theorem wit_TickRequestWaits :
    (1 ≤ (offering 0).ringSize ∧ (offering 0).seq ≠ .idle) ∧
    (({ base with tickValid := true } : State).Wf ∧ ({ base with tickValid := true } : State).seq = .idle ∧
      ({ base with tickValid := true } : State).events.head? = none) ∧
    ({ base with tickValid := true, events := [.advance] } : State).events.head? = some .advance ∧
    (1 ≤ ({ offering 13 with tickValid := true } : State).ringSize ∧ ({ offering 13 with tickValid := true } : State).seq ≠ .idle ∧
      ({ offering 13 with tickValid := true } : State).tickValid = true) ∧
    (∃ t, step { offering 13 with tickValid := true, events := [.reset true] } = .next t) ∧
    (∃ t, step { base with tickValid := true } = .next t) :=
  ⟨by decide, by decide, by decide, by decide, ⟨_, rfl⟩, _, rfl⟩

theorem wit_TickFrame : (∃ t, exec .tick base = .next t) ∧ (∃ t, exec .tick (offering 13) = .next t ∧ (offering 13).seq ≠ .idle) :=
  ⟨⟨_, rfl⟩, _, rfl, by decide⟩

theorem wit_PatternsForTwelve : (atCursor 0).Wf ∧ (atCursor 11).Wf ∧ (atCursor 11).ringSize = 12 ∧ (atCursor 11).seq = .idle := by decide

theorem wit_WordFunction :
    base.Wf ∧ base.ring[1 - 1]? = some ⟨1, 2, 3⟩ ∧ base.ring[12 - 1]? = some ⟨1, 2, 3⟩ ∧ 12 ≤ base.ringSize := by decide

theorem wit_StartIsAccepted : (offering 0).seq = .emit 0 ∧ (offering 0).frameReady = true := by decide

theorem wit_LedIsAccepted :
    (0 < (offering 1).ringSize ∧ (offering 1).ring[0]? = some Config.primary ∧ (offering 1).seq = .emit (0 + 1) ∧
      (offering 1).frameReady = true) ∧
    (11 < (offering 12).ringSize ∧ (offering 12).ring[11]? = some Config.secondary ∧ (offering 12).seq = .emit (11 + 1)) := by decide

theorem wit_EndIsAccepted : (offering 13).seq = .emit ((offering 13).ringSize + 1) ∧ (offering 13).frameReady = true := by decide

theorem wit_FrameWordsWaitForTheSink : ({ offering 0 with frameReady := false } : State).frameReady = false := by decide

theorem wit_OnlyTheOfferedWordIsAccepted :
    (∃ t, exec .startWord (offering 0) = .next t) ∧ (∃ t, exec .endWord base = .next t) ∧
    (∃ t, exec (.led 15 255 0 255) (offering 3) = .next t) := ⟨⟨_, rfl⟩, ⟨_, rfl⟩, ⟨_, rfl⟩⟩

theorem wit_OneBrightnessPerTransmission :
    (offering 1).word 1 = some 0xEF0000FF ∧ (offering 1).word 12 = some 0xEFFF00FF ∧ 12 ≤ (offering 1).ringSize ∧
    (nextOf (step (offering 1))).isSome = true := by decide

theorem wit_OfferedWordsHaveTheirForm : (offering 0).offered = some 0 ∧ (offering 13).offered = some 0xFFFFFFFF := by decide

theorem wit_StepRunsTheDecodedOperation :
    1 ≤ (offering 13).ringSize ∧ (offering 13).nextMove = .present (.frameStream 12 13) [0xFF, 0xFF, 0xFF, 0xFF] ∧
    decode (.frameStream 12 13) [0xFF, 0xFF, 0xFF, 0xFF] = .ok .endWord := ⟨by decide, by decide, rfl⟩

theorem wit_WhatIsPresented :
    (({ base with tickValid := true } : State).events.head? = none ∧ ({ base with tickValid := true } : State).seq = .idle) ∧
    ((offering 0).seq = .emit 0 ∧ (offering 0).frameReady = true ∧ (offering 0).offered = some 0 ∧ (offering 0).events.head? = none) ∧
    (({ base with events := [.requestTick] } : State).events.head? = some .requestTick ∧ base.init = .succeeded) ∧
    ({ base with events := [.driveEncoder 7] } : State).events.head? = some (.driveEncoder 7) := by decide

theorem wit_WordsDecodeAtTheirPosition :
    (offering 0).word 0 = some 0 ∧ (offering 0).word 12 = some 0xEFFF00FF ∧ (offering 0).word 13 = some 0xFFFFFFFF := by decide

/-- One step for each of the four kinds: hold, tick, acceptance, reset. -/
theorem wit_SequencerTransitions :
    (∃ t, step base = .next t) ∧ (∃ t, step { base with events := [.requestTick] } = .next t) ∧ (∃ t, step (offering 13) = .next t) ∧
    (∃ t, step { offering 4 with events := [.reset true] } = .next t) := ⟨⟨_, rfl⟩, ⟨_, rfl⟩, ⟨_, rfl⟩, ⟨_, rfl⟩⟩

theorem wit_RingFrozenDuringTransmission :
    (offering 13).seq ≠ .idle ∧ (∀ taken : Bool, (offering 13).events.head? ≠ some (.reset taken)) ∧ ∃ t, step (offering 13) = .next t :=
  ⟨by decide, by decide, _, rfl⟩

theorem wit_ConstantsAreNeverWritten : ∃ t, step { offering 4 with events := [.reset true] } = .next t := ⟨_, rfl⟩

theorem wit_AcceptedWordsAreTheOfferedOnes : ∃ t, step (offering 1) = .next t ∧ t.accepted ≠ (offering 1).accepted :=
  ⟨_, rfl, by decide⟩

theorem wit_OfferedWordIsHeld :
    (offering 5).offered = some 0xEFFFFF00 ∧ ∃ t, step { offering 5 with events := [.requestTick] } = .next t ∧ t.accepted = (offering 5).accepted :=
  ⟨by decide, _, rfl, by decide⟩

theorem wit_SinkThatNeverAcceptsHoldsTheBlock :
    (1 ≤ (held 5 []).ringSize ∧ (held 5 []).seq = .emit 5 ∧ (held 5 []).frameReady = false ∧ (held 5 []).init = .succeeded ∧
      (held 5 []).events = []) ∧
    (∀ e ∈ (held 13 [.requestTick, .wait 100, .driveEncoder 7, .sinkReady false, .advance]).events,
      e ≠ .sinkReady true ∧ ∀ taken : Bool, e ≠ .reset taken) ∧
    (held 13 [.requestTick, .wait 100, .driveEncoder 7, .sinkReady false, .advance]).seq = .emit 13 ∧
    ∃ t, Host.Core.run Sys2Proof.core 5 (held 13 [.requestTick, .wait 100, .driveEncoder 7, .sinkReady false, .advance]) = .next t :=
  ⟨by decide, by decide, by decide, _, rfl⟩

theorem wit_OtherMovesLeaveTheBlock :
    1 ≤ base.ringSize ∧ ({ base with events := [.wait 100] } : State).events = .wait 100 :: [] ∧
    ({ base with events := [.sinkReady false] } : State).events = .sinkReady false :: [] ∧
    ({ base with events := [.initialise true], init := .pending } : State).events = .initialise true :: [] ∧
    ({ base with events := [.initialise true], init := .pending } : State).init = .pending ∧
    ({ base with events := [.initialise true] } : State).events = .initialise true :: [] ∧ base.init ≠ .pending := by decide

theorem wit_StepStopsOnlyThere :
    (({ base with events := [.requestTick], init := .failed } : State).Wf ∧
      refusalOf (step { base with events := [.requestTick], init := .failed }) = some .tickBeforeInitialisation) ∧
    (small 0).ringSize = 0 := by decide

theorem wit_ResetLeavesTheResetState :
    1 ≤ (offering 4).ringSize ∧ ({ offering 4 with events := [.reset true] } : State).events = .reset true :: [] ∧
    ({ offering 4 with events := [.reset true] } : State).offered = some 0xEFFFFF00 ∧ (offering 4).frameReady = true ∧
    base.offered = none := by decide

theorem wit_StepKeepsTheStateInvariants :
    ((offering 13).Wf ∧ ∃ t, step (offering 13) = .next t) ∧ ((atCursor 11).Wf ∧ ∃ t, step { atCursor 11 with events := [.requestTick] } = .next t) :=
  ⟨⟨by decide, _, rfl⟩, by decide, _, rfl⟩

theorem wit_CursorAndIndexFitTheirRegisters : (atCursor 11).Wf ∧ (offering 13).Wf ∧ (offering 13).seq = .emit 13 := by decide

theorem wit_StepKeepsTheSentWords :
    ({ offering 2 with accepted := [0x00000000, 0xEF0000FF] } : State).SentSoFar ∧
    ∃ t, step { offering 2 with accepted := [0x00000000, 0xEF0000FF] } = .next t := ⟨by decide, _, rfl⟩

/-- P5: the words of a transmission in progress, before its third word. -/
theorem wit_StepKeepsTheStreamGrammar :
    ({ offering 2 with accepted := [0x00000000, 0xEF0000FF] } : State).StreamOk ∧
    ∃ t, step { offering 2 with accepted := [0x00000000, 0xEF0000FF] } = .next t :=
  ⟨⟨[], [0x00000000, 0xEF0000FF], rfl, by decide, by decide, by decide, rfl⟩, _, rfl⟩

theorem wit_NothingBeforeInitialisation :
    (State.reset.InitFirst ∧ ∃ t, step { State.reset with events := [.initialise true] } = .next t) ∧
    (offering 0).InitFirst := ⟨⟨.inr ⟨rfl, rfl, rfl⟩, _, rfl⟩, by decide⟩

theorem wit_WholeTick :
    ({ atCursor 11 with events := tickEvents 12 } : State).Wf ∧ ({ atCursor 11 with events := tickEvents 12 } : State).seq = .idle ∧
    ({ atCursor 11 with events := tickEvents 12 } : State).init = .succeeded ∧
    ({ atCursor 11 with events := tickEvents 12 } : State).frameReady = true ∧
    ({ atCursor 11 with events := tickEvents 12 } : State).events = tickEvents (atCursor 11).ringSize ++ [] := by decide

theorem wit_TransmissionShape :
    ({ small 1 with events := tickEvents 1 ++ [.wait 100] } : State).Wf ∧ (small 1).seq = .idle ∧ (small 1).init = .succeeded ∧
    (small 1).frameReady = true ∧
    ({ small 1 with events := tickEvents 1 ++ [.wait 100] } : State).events = tickEvents (small 1).ringSize ++ [.wait 100] := by decide

theorem wit_RunOfTicks :
    ({ small 2 with events := (HostCommand.tick 2).events 2 } : State).Wf ∧ (small 2).seq = .idle ∧ (small 2).init = .succeeded ∧
    (small 2).frameReady = true ∧ (small 2).tickValid = false ∧
    ({ small 2 with events := (HostCommand.tick 2).events 2 } : State).events = (HostCommand.tick 2).events (small 2).ringSize ++ [] := by
  decide

theorem wit_ReadySinkCompletesTheTick :
    ((offering 0).Wf ∧ (offering 0).seq = .emit 0 ∧ (offering 0).frameReady = true ∧ (offering 0).events = []) ∧
    ((offering 13).Wf ∧ (offering 13).seq = .emit 13 ∧ (offering 13).events = []) ∧
    ({ offering 12 with events := [.advance, .advance, .requestTick] } : State).events =
      List.replicate ((offering 12).ringSize + 2 - 12) .advance ++ [.requestTick] := by decide

/-- R149: a sink that stalls while the host waits, and then becomes ready, is fair. The end word is offered in the first three states of the run,
the sink takes it at the third, and from then on the block is in IDLE. -/
theorem wit_FairSinkCompletesTheTick :
    ((held 13 [.wait 100, .sinkReady true]).Wf ∧ (held 13 [.wait 100, .sinkReady true]).seq = .emit 13 ∧
      (held 13 [.wait 100, .sinkReady true]).InitFirst ∧ (held 13 [.wait 100, .sinkReady true]).SinkEndsReady) ∧
    (∀ taken : Bool, .reset taken ∉ (held 13 [.wait 100, .sinkReady true]).events) ∧
    (held 13 [.wait 100, .sinkReady true]).SinkFair := by
  refine ⟨by decide, by decide, ?_⟩
  intro m t w h hw
  match m, h with
  | 0, h => obtain rfl := Host.Outcome.next.inj h; exact ⟨2, _, rfl, rfl, .inl ⟨hw, rfl, .inl rfl⟩⟩
  | 1, h => obtain rfl := Host.Outcome.next.inj h; exact ⟨1, _, rfl, rfl, .inl ⟨hw, rfl, .inl rfl⟩⟩
  | 2, h => obtain rfl := Host.Outcome.next.inj h; exact ⟨0, _, rfl, rfl, .inl ⟨hw, rfl, .inl rfl⟩⟩
  | m + 3, h =>
    rw [Nat.add_comm, run_add_of_next (a := 3) rfl, run_of_step_self rfl] at h
    obtain rfl := Host.Outcome.next.inj h
    cases hw

theorem wit_IdleRingIsUnobservable : base.seq = .idle ∧ (atCursor 11).seq = .idle := by decide

end Sys2Proof.Tests
end

section
/-! The wrap of an index below zero (R118). -/

namespace Sys2Proof.Machine

/-- R14: the mathematical modulo does not see whole turns of the ring. -/
theorem wrapIndex_add_mul (n : Nat) (a m : Int) : wrapIndex n (a + n * m) = wrapIndex n a := by
  rw [wrapIndex, Int.add_mul_emod_self_left, wrapIndex]

/-- R118: two turns added first keep the index non-negative, so the modulo can be taken on naturals; this holds as far as two turns below zero. -/
theorem wrapIndex_sub_natCast {n c k : Nat} (h : k ≤ c + 2 * n) :
    wrapIndex n ((c : Int) - k) = (c + 2 * n - k) % n := by
  have twoTurns : ((c + 2 * n - k : Nat) : Int) = (c : Int) - k + n * 2 := by omega
  rw [← wrapIndex_natCast, twoTurns, wrapIndex_add_mul]

/-- Settles O19: an offset of 1 or 2 is at most two turns of a ring that has a slot. -/
theorem moduloOfNegativeOffsets : Obligations.ModuloOfNegativeOffsets := by
  unfold Obligations.ModuloOfNegativeOffsets
  refine ⟨?nonNegativeForm, by decide⟩
  case nonNegativeForm =>
    intro n c k hc hk
    have atMostTwoTurns : k ≤ c + 2 * n := by omega
    exact ⟨wrapIndex_sub_natCast atMostTwoTurns, wrapIndex_lt (by omega) _⟩

end Sys2Proof.Machine
end

section
/-! The state invariants R31 at reset and along every step. -/

namespace Sys2Proof.Machine

@[simp] theorem length_drawnRing (n draw : Nat) : (drawnRing n draw).length = n := by simp [drawnRing]

/-- R101 to R103: steps 1 to 3 leave a colour in each of the N slots, whatever ring stood there before. -/
theorem State.length_updateRing_ring (s : State) : s.updateRing.ring.length = s.ringSize := by simp

theorem State.sentCount_of_idle {s : State} (h : s.seq = .idle) : s.sentCount = 0 := by simp [State.sentCount, h]

theorem State.sentCount_of_emit {s : State} {k : Nat} (h : s.seq = .emit k) : s.sentCount = k := by simp [State.sentCount, h]

/-- R109: from any position the next phase is in range, because the sequencer leaves EMIT(k) upwards only for `k ≤ N`. -/
theorem State.phaseInRange_of_nextPhase {s : State} {k : Nat} (h : s.seq = nextPhase s.ringSize k) : s.PhaseInRange := by
  rw [State.PhaseInRange]
  unfold nextPhase at h
  split at h
  · rw [State.sentCount_of_emit h]; omega
  · rw [State.sentCount_of_idle h]; omega

theorem State.reset_wf : State.reset.Wf :=
  ⟨by decide, length_drawnRing _ _, by decide, by decide⟩

/-- R106: step 4 leaves the cursor a valid index. -/
theorem State.beginTick_cursor_lt {s : State} (h : 1 ≤ s.ringSize) : s.beginTick.cursor < s.ringSize := by
  rw [State.beginTick_cursor]; exact wrapIndex_lt h _

theorem State.beginTick_wf {s : State} (h : 1 ≤ s.ringSize) : s.beginTick.Wf :=
  ⟨h, s.length_updateRing_ring, State.beginTick_cursor_lt h, Nat.zero_le _⟩

theorem State.resetBlock_wf {s : State} (h : 1 ≤ s.ringSize) (taken : Bool) : (s.resetBlock taken).Wf :=
  ⟨h, length_drawnRing _ _, h, Nat.zero_le _⟩

/-- Each effect of a step keeps R31. Only a tick, an acceptance and a reset write ring, cursor or phase. -/
theorem StepEffect.keeps_wf {e? : Option Event} {u t : State} (h : StepEffect e? u t) (hu : u.Wf) : t.Wf := by
  have ⟨hN, hring, hcursor, _⟩ := hu
  cases h with
  | hold => exact hu
  | encode w => exact hu
  | beginTick => exact State.beginTick_wf hN
  | holdRequest => exact hu
  | accept k w => exact ⟨hN, hring, hcursor, State.phaseInRange_of_nextPhase rfl⟩
  | sinkReady ready => exact hu
  | reset taken => exact State.resetBlock_wf hN taken
  | endInit ok =>
    obtain ⟨-, hend⟩ | ⟨-, hend⟩ := u.endInit_cases ok <;> (rw [hend]; exact hu)

theorem step_keeps_wf {s t : State} (h : step s = .next t) (hs : s.Wf) : t.Wf :=
  step_keeps (P := State.Wf) (fun _ hw => hw) (fun _ heffect hu => heffect.keeps_wf hu) h hs

/-- R31, R26: an LED frame has room for the low 5 bits of the stored brightness only, which is the mask `0x1F`. -/
theorem toNat_briOf_encodeColour (bri : Byte) (c : Colour) : (briOf (encodeColour bri c)).toNat = bri.toNat &&& 0x1F := by
  have hmask : bri.toNat &&& 0x1F = bri.toNat % 2 ^ 5 := Nat.and_two_pow_sub_one_eq_mod _ 5
  rw [encodeColour_eq_ledWordBits, briOf_ledWordBits, BitVec.toNat_setWidth, hmask]

/-- Settles O50: reset meets the invariants, each effect of a step keeps them, and the brightness field masks. -/
theorem stepKeepsTheStateInvariants : Obligations.StepKeepsTheStateInvariants :=
  ⟨State.reset_wf, fun _ _ hs h => step_keeps_wf h hs, toNat_briOf_encodeColour⟩

/-- Settles O47: the drawn ring has N slots, and the other values are written in the reset state. -/
theorem machineResetState : Obligations.MachineResetState :=
  ⟨rfl, length_drawnRing _ _, rfl, rfl, rfl, rfl, rfl, State.offered_idle rfl⟩

end Sys2Proof.Machine
end

section
/-! The configuration constants (R20(d), R25, R26, R46). -/

namespace Sys2Proof.Machine

/-- N and the four configuration constants, the fields of the state that no agent writes. -/
def State.constants (s : State) : Nat × Colour × Colour × Colour × Byte :=
  (s.ringSize, s.primary, s.secondary, s.fill, s.brightness)

theorem State.constants_eq_iff {s t : State} : t.constants = s.constants ↔
    t.ringSize = s.ringSize ∧ t.primary = s.primary ∧ t.secondary = s.secondary ∧ t.fill = s.fill ∧
      t.brightness = s.brightness := by
  simp [State.constants]

theorem StepEffect.constants_eq {e? : Option Event} {u t : State} (h : StepEffect e? u t) : t.constants = u.constants := by
  cases h with
  | hold => rfl
  | encode w => rfl
  | beginTick => rfl
  | holdRequest => rfl
  | accept k w => rfl
  | sinkReady ready => rfl
  | reset taken => rfl
  | endInit ok => simp [State.constants]

theorem step_constants_eq {s t : State} (h : step s = .next t) : t.constants = s.constants :=
  (step_effect h).2.constants_eq

/-- Settles O40: no effect of a step writes one of them. -/
theorem constantsAreNeverWritten : Obligations.ConstantsAreNeverWritten :=
  fun _ _ h => State.constants_eq_iff.1 (step_constants_eq h)

end Sys2Proof.Machine
end

section
/-! The storage layout of a colour (R27) and the frame it is part of (R60). -/

namespace Sys2Proof.Machine

/-! The fields of a stored colour. -/

@[simp] theorem stored24_blue (c : Colour) : (stored24 c).extractLsb' 16 8 = c.b := by
  rw [stored24, BitVec.extractLsb'_append_eq_of_le (by decide)]
  exact BitVec.extractLsb'_append_eq_left

@[simp] theorem stored24_green (c : Colour) : (stored24 c).extractLsb' 8 8 = c.g := by
  rw [stored24, BitVec.extractLsb'_append_eq_of_le (by decide)]
  exact BitVec.extractLsb'_append_eq_right

@[simp] theorem stored24_red (c : Colour) : (stored24 c).extractLsb' 0 8 = c.r :=
  BitVec.extractLsb'_append_eq_right

/-! The layout loses nothing. -/

theorem ofStored24_stored24 (c : Colour) : ofStored24 (stored24 c) = c := by
  simp [ofStored24]

theorem stored24_ofStored24 (v : BitVec 24) : stored24 (ofStored24 v) = v := by
  have hblueGreen : v.extractLsb' 16 8 ++ v.extractLsb' 8 8 = v.extractLsb' 8 (8 + 8) :=
    BitVec.extractLsb'_append_extractLsb'_eq_extractLsb' rfl
  have hblueGreenRed : v.extractLsb' 8 (8 + 8) ++ v.extractLsb' 0 8 = v.extractLsb' 0 24 :=
    BitVec.extractLsb'_append_extractLsb'_eq_extractLsb' rfl
  rw [stored24, ofStored24, hblueGreen, hblueGreenRed, BitVec.extractLsb'_eq_self]

/-- R60: the frame of a colour is the mark, the low 5 bits of the brightness, and the stored colour. -/
theorem encodeColour_eq_append_stored24 (bri : Byte) (c : Colour) :
    encodeColour bri c = 0b111#3 ++ bri.extractLsb' 0 5 ++ stored24 c := by
  rw [encodeColour_eq_ledWordBits, ledWordBits, stored24, BitVec.setWidth_eq_extractLsb' (by decide)]
  simp only [BitVec.append_assoc, BitVec.cast_eq]

/-- Settles O12: the fields of the stored colour, its place in the frame, and the two inverses. -/
theorem storedColourIsTheFramesLowBits : Obligations.StoredColourIsTheFramesLowBits :=
  ⟨fun c => ⟨stored24_blue c, stored24_green c, stored24_red c⟩, encodeColour_eq_append_stored24,
    ofStored24_stored24, stored24_ofStored24⟩

end Sys2Proof.Machine
end

section
/-! The registers that hold the cursor and the emission index (R12). -/

namespace Sys2Proof

theorem Config.le_two_pow_ceilLog2 (n : Nat) : n ≤ 2 ^ Config.ceilLog2 n := by
  unfold Config.ceilLog2
  split
  · simpa
  · have hlog : n - 1 < 2 ^ (Nat.log2 (n - 1) + 1) := Nat.lt_log2_self
    omega

/-- Every index into a ring of `n` slots fits the cursor's register. -/
theorem Config.lt_two_pow_cursorWidth {n c : Nat} (h : c < n) : c < 2 ^ Config.cursorWidth n :=
  calc c < n := h
    _ ≤ 2 ^ Config.ceilLog2 n := Config.le_two_pow_ceilLog2 n
    _ ≤ 2 ^ Config.cursorWidth n := Nat.pow_le_pow_right (by decide) (Nat.le_max_right ..)

/-- Every position of a transmission of `n + 2` words fits the emission index's register. -/
theorem Config.lt_two_pow_indexWidth {n k : Nat} (h : k ≤ n + 1) : k < 2 ^ Config.indexWidth n :=
  Nat.lt_of_lt_of_le (Nat.lt_succ_of_le h) (Config.le_two_pow_ceilLog2 (n + 2))

namespace Machine

/-- Settles O51: R31 bounds the cursor by N and the emission index by N + 1. -/
theorem cursorAndIndexFitTheirRegisters : Obligations.CursorAndIndexFitTheirRegisters := by
  refine ⟨?fit, by decide⟩
  case fit =>
    rintro s ⟨-, -, hcursor, hphase⟩
    refine ⟨Config.lt_two_pow_cursorWidth hcursor, fun k hk => Config.lt_two_pow_indexWidth ?_⟩
    rw [State.PhaseInRange, State.sentCount_of_emit hk] at hphase
    exact hphase

end Machine

end Sys2Proof
end

section
/-! The words already sent, at the end of the sink's list (R48, R107, R24). -/

namespace Sys2Proof.Machine

/-- Where no word of a transmission is accepted yet, nothing is asked of the accepted words. -/
theorem State.sentSoFar_of_sentCount_eq_zero {s : State} (h : s.sentCount = 0) : s.SentSoFar := by
  simp [State.SentSoFar, h]

/-- Fewer accepted words than the phase counts cannot be the words sent. -/
theorem State.SentSoFar.sentCount_le {s : State} (h : s.SentSoFar) : s.sentCount ≤ s.accepted.length := by
  have hlen := congrArg List.length h
  simp only [List.length_map, List.length_drop, List.length_range] at hlen
  omega

/-- R107, R109: the word accepted in EMIT(k) is the next one of the transmission, or its last. -/
theorem State.SentSoFar.accept {u : State} {k : Nat} {w : Word} (hu : u.SentSoFar) (hseq : u.seq = .emit k)
    (hword : u.word k = some w) :
    State.SentSoFar { u with accepted := u.accepted ++ [w], seq := nextPhase u.ringSize k } := by
  by_cases hk : k ≤ u.ringSize
  · have hcount : u.sentCount = k := State.sentCount_of_emit hseq
    have hle : k ≤ u.accepted.length := hcount ▸ hu.sentCount_le
    have hsent : (u.accepted.drop (u.accepted.length - k)).map some = (List.range k).map u.word := hcount ▸ hu
    rw [nextPhase, if_pos hk]
    change ((u.accepted ++ [w]).drop ((u.accepted ++ [w]).length - (k + 1))).map some = (List.range (k + 1)).map u.word
    calc ((u.accepted ++ [w]).drop ((u.accepted ++ [w]).length - (k + 1))).map some
        = ((u.accepted ++ [w]).drop (u.accepted.length - k)).map some := by
          rw [List.length_append, List.length_singleton, Nat.add_sub_add_right]
      _ = (u.accepted.drop (u.accepted.length - k)).map some ++ [some w] := by
          rw [List.drop_append_of_le_length (Nat.sub_le ..), List.map_append, List.map_singleton]
      _ = (List.range k).map u.word ++ [u.word k] := by rw [hsent, hword]
      _ = (List.range (k + 1)).map u.word := by rw [List.range_succ, List.map_append, List.map_singleton]
  · rw [nextPhase, if_neg hk]
    exact State.sentSoFar_of_sentCount_eq_zero rfl

/-- Each effect of a step keeps the words sent. A tick and a reset start the count again, and only an acceptance adds to it. -/
theorem StepEffect.keeps_sentSoFar {e? : Option Event} {u t : State} (h : StepEffect e? u t) (hu : u.SentSoFar) :
    t.SentSoFar := by
  cases h with
  | hold => exact hu
  | encode w => exact hu
  | beginTick => exact State.sentSoFar_of_sentCount_eq_zero rfl
  | holdRequest => exact hu
  | accept k w hseq hword => exact hu.accept hseq hword
  | sinkReady ready => exact hu
  | reset taken => exact State.sentSoFar_of_sentCount_eq_zero rfl
  | endInit ok =>
    obtain ⟨-, hend⟩ | ⟨-, hend⟩ := u.endInit_cases ok <;> (rw [hend]; exact hu)

/-- Settles O52: consuming an event leaves the words alone, and each effect of a step keeps the statement. -/
theorem stepKeepsTheSentWords : Obligations.StepKeepsTheSentWords :=
  fun _ _ hs h => step_keeps (P := State.SentSoFar) (fun _ hu => hu) (fun _ heffect hu => heffect.keeps_sentSoFar hu) h hs

end Sys2Proof.Machine
end

section
/-! The bytes and bits of a word in wire order (R40, R41). -/

namespace Sys2Proof

@[simp] theorem wordBytes_append (b3 b2 b1 b0 : Byte) : wordBytes (b3 ++ b2 ++ b1 ++ b0) = [b3, b2, b1, b0] := by
  simp only [wordBytes, byte3Of_append, blueOf_append, greenOf_append, redOf_append]

/-- R41: the mark and the brightness of an LED frame share its first byte. -/
theorem wordBytes_ledWordBits (bri : BitVec 5) (b g r : Byte) : wordBytes (ledWordBits bri b g r) = [0b111#3 ++ bri, b, g, r] :=
  wordBytes_append (0b111#3 ++ bri) b g r

/-- Byte `j` in wire order lies `8 * j` bits below the top byte. -/
theorem wordBytes_eq_map_range (w : Word) : wordBytes w = (List.range 4).map (fun j => w.extractLsb' (24 - 8 * j) 8) := rfl

theorem range_32_eq_flatMap : List.range 32 = (List.range 4).flatMap (fun j => (List.range 8).map (fun i => 8 * j + i)) := rfl

/-- R40 with R41: bit `i` of byte `j`, both counted in wire order, is bit `8 * j + i` of the word. -/
theorem getLsbD_wireByte (w : Word) {j i : Nat} (hj : j < 4) (hi : i < 8) :
    (w.extractLsb' (24 - 8 * j) 8).getLsbD (7 - i) = w.getLsbD (31 - (8 * j + i)) := by
  have hinByte : 7 - i < 8 := by omega
  have hplace : 24 - 8 * j + (7 - i) = 31 - (8 * j + i) := by omega
  rw [BitVec.getLsbD_extractLsb', decide_eq_true hinByte, Bool.true_and, hplace]

theorem wireBits_eq_flatMap_wordBytes (w : Word) :
    wireBits w = (wordBytes w).flatMap (fun byte => (List.range 8).map (fun i => byte.getLsbD (7 - i))) := by
  rw [wireBits, range_32_eq_flatMap, List.map_flatMap, wordBytes_eq_map_range, List.flatMap_map]
  refine List.flatMap_congr fun j hj => ?_
  rw [List.map_map]
  exact List.map_congr_left fun i hi => (getLsbD_wireByte w (List.mem_range.1 hj) (List.mem_range.1 hi)).symm

/-- Settles O5: the bytes are those of the LED frame of the operands' low bits, and the bits go byte by byte. -/
theorem frameBytesInWireOrder : Obligations.FrameBytesInWireOrder := by
  refine ⟨fun bri r g b => ?frameBytes, wireBits_eq_flatMap_wordBytes⟩
  case frameBytes => rw [Machine.encodeFrame_eq_ledWordBits, wordBytes_ledWordBits]

end Sys2Proof
end

section
/-! The operation a step runs (R52, R69). -/

namespace Sys2Proof.Machine

/-- Settles O35: a ring with a slot is not empty, and then a presented operation is decoded and executed. -/
theorem stepRunsTheDecodedOperation : Obligations.StepRunsTheDecodedOperation :=
  fun _ _ _ _ hN hpresent hdecode => step_of_present (Nat.ne_of_gt hN) hpresent hdecode

end Sys2Proof.Machine
end

section
/-! The decoder and the encoder as inverses, at each interface (R60 to R69). -/

namespace Sys2Proof

theorem wordBytes_inj {v w : Word} : wordBytes v = wordBytes w ↔ v = w := by
  refine ⟨fun h => ?_, congrArg wordBytes⟩
  have hjoined := congrArg ofWordBytes h
  simpa using hjoined

theorem ofWordBytes_eq_some_iff {bytes : List Byte} {w : Word} : ofWordBytes bytes = some w ↔ wordBytes w = bytes := by
  refine ⟨wordBytes_of_ofWordBytes, ?_⟩
  rintro rfl
  exact ofWordBytes_wordBytes w

/-- R60, R68: a word with the mark of an LED frame is the LED frame of its fields. -/
theorem ledWordBits_fields {w : Word} (h : markOf w = 0b111#3) :
    ledWordBits (briOf w) (blueOf w) (greenOf w) (redOf w) = w := by
  rw [ledWordBits, ← h, append_fields]

/-! The encoder port (R66). -/

theorem decodeEncoderPort_encoderBus {bri r g b : Nat} (h : (Instr.encode bri r g b).WellFormed) :
    decodeEncoderPort (encoderBus bri r g b) = .encode bri r g b := by
  obtain ⟨hbri, hr, hg, hb⟩ := h
  simp [decodeEncoderPort, encoderBus, Nat.mod_eq_of_lt, *]

/-- R66, R71: what the port reads from a bus is the well-formed ENCODE whose bus it is. -/
theorem decodeEncoderPort_eq_iff {w : Word} {i : Instr} :
    decodeEncoderPort w = i ↔ i.WellFormed ∧ Interface.encoderPort.Carries i ∧ encode i = wordBytes w := by
  constructor
  · rintro rfl
    exact ⟨⟨BitVec.isLt _, BitVec.isLt _, BitVec.isLt _, BitVec.isLt _⟩, trivial,
      congrArg wordBytes (Machine.encoderBus_fields w)⟩
  · rintro ⟨hwf, hcarries, hbytes⟩
    cases i with
    | encode bri r g b =>
      obtain rfl : encoderBus bri r g b = w := wordBytes_inj.1 hbytes
      exact decodeEncoderPort_encoderBus hwf
    | tick => exact hcarries.elim
    | startWord => exact hcarries.elim
    | led bri b g r => exact hcarries.elim
    | endWord => exact hcarries.elim

/-! The frame stream (R60, R62, R63, R67). -/

theorem decodeFrame_start (n : Nat) : decodeFrame n 0 startWordBits = .ok .startWord := by
  simp [decodeFrame]

theorem decodeFrame_led {n pos : Nat} {w : Word} (h1 : 1 ≤ pos) (hn : pos ≤ n) (hmark : markOf w = 0b111#3) :
    decodeFrame n pos w = .ok (.led (briOf w) (blueOf w) (greenOf w) (redOf w)) := by
  rw [decodeFrame, if_neg (Nat.ne_of_gt h1), if_pos hn, if_pos hmark]

theorem decodeFrame_end (n : Nat) : decodeFrame n (n + 1) endWordBits = .ok .endWord := by
  simp [decodeFrame]

/-- R67: what the stream reads from a word is the operation that the position carries and whose bytes are the word's. -/
theorem decodeFrame_eq_ok_iff {n pos : Nat} {w : Word} {i : Instr} :
    decodeFrame n pos w = .ok i ↔ (Interface.frameStream n pos).Carries i ∧ encode i = wordBytes w := by
  constructor
  · intro h
    unfold decodeFrame at h
    split_ifs at h with hpos hw hn hmark hpos' hw'
    · obtain rfl := Except.ok.inj h
      exact ⟨hpos, congrArg wordBytes hw.symm⟩
    · obtain rfl := Except.ok.inj h
      exact ⟨⟨Nat.pos_of_ne_zero hpos, hn⟩, congrArg wordBytes (ledWordBits_fields hmark)⟩
    · obtain rfl := Except.ok.inj h
      exact ⟨hpos', congrArg wordBytes hw'.symm⟩
  · rintro ⟨hcarries, hbytes⟩
    cases i with
    | encode bri r g b => exact hcarries.elim
    | tick => exact hcarries.elim
    | startWord =>
      obtain rfl : pos = 0 := hcarries
      obtain rfl : startWordBits = w := wordBytes_inj.1 hbytes
      exact decodeFrame_start n
    | led bri b g r =>
      obtain ⟨h1, hn⟩ := hcarries
      obtain rfl : ledWordBits bri b g r = w := wordBytes_inj.1 hbytes
      simpa using decodeFrame_led h1 hn (markOf_ledWordBits bri b g r)
    | endWord =>
      obtain rfl : pos = n + 1 := hcarries
      obtain rfl : endWordBits = w := wordBytes_inj.1 hbytes
      exact decodeFrame_end n

/-- A word that R67 puts at a position of the transmission decodes there. -/
theorem exists_decodeFrame_of_frameAt {n pos : Nat} {w : Word} (hpos : pos ≤ n + 1) (h : Machine.FrameAt n pos w) :
    ∃ i, decodeFrame n pos w = .ok i := by
  unfold Machine.FrameAt at h
  split_ifs at h with h0 hn
  · subst h0 h; exact ⟨_, decodeFrame_start n⟩
  · exact ⟨_, decodeFrame_led (Nat.pos_of_ne_zero h0) hn h⟩
  · obtain rfl : pos = n + 1 := by omega
    subst h; exact ⟨_, decodeFrame_end n⟩

/-! The decoder over the bytes of an interface. -/

/-- R65, R72: the command interface reads one byte, by its bit 0, and has one command. -/
theorem decode_command_eq_ok_iff {bytes : List Byte} {i : Instr} :
    decode .command bytes = .ok i ↔ i = .tick ∧ ∃ byte : Byte, bytes = [byte] ∧ byte.getLsbD 0 = true := by
  constructor
  · intro h
    match bytes, h with
    | [byte], h =>
      replace h : decodeCommand byte = .ok i := h
      unfold decodeCommand at h
      split_ifs at h with hbit
      exact ⟨(Except.ok.inj h).symm, byte, rfl, hbit⟩
  · rintro ⟨rfl, byte, rfl, hbit⟩
    exact if_pos hbit

theorem decode_encoderPort_eq_ok_iff {bytes : List Byte} {i : Instr} :
    decode .encoderPort bytes = .ok i ↔ ∃ w, wordBytes w = bytes ∧ decodeEncoderPort w = i := by
  simp only [decode, ← ofWordBytes_eq_some_iff]
  cases ofWordBytes bytes <;> simp

theorem decode_frameStream_eq_ok_iff {n pos : Nat} {bytes : List Byte} {i : Instr} :
    decode (.frameStream n pos) bytes = .ok i ↔ ∃ w, wordBytes w = bytes ∧ decodeFrame n pos w = .ok i := by
  simp only [decode, ← ofWordBytes_eq_some_iff]
  cases ofWordBytes bytes <;> simp

/-- R73: every operation but the command is encoded as one word. -/
theorem exists_wordBytes_eq_encode {i : Instr} (h : i ≠ .tick) : ∃ w, wordBytes w = encode i := by
  cases i with
  | tick => exact (h rfl).elim
  | encode bri r g b => exact ⟨_, rfl⟩
  | startWord => exact ⟨_, rfl⟩
  | led bri b g r => exact ⟨_, rfl⟩
  | endWord => exact ⟨_, rfl⟩

/-- Only the encoder port carries an operation that can be ill-formed. -/
theorem wellFormed_of_frameStream_carries {n pos : Nat} {i : Instr} (h : (Interface.frameStream n pos).Carries i) :
    i.WellFormed := by
  cases i with
  | encode bri r g b => exact h.elim
  | tick => trivial
  | startWord => trivial
  | led bri b g r => trivial
  | endWord => trivial

/-- The two directions of decoding at once, on the 32-bit interfaces: bytes decode exactly to the well-formed operation that the interface
carries and whose bytes they are. -/
theorem decode_eq_ok_iff {iface : Interface} (hword : iface ≠ .command) {bytes : List Byte} {i : Instr} :
    decode iface bytes = .ok i ↔ i.WellFormed ∧ iface.Carries i ∧ encode i = bytes := by
  cases iface with
  | command => exact (hword rfl).elim
  | encoderPort =>
    rw [decode_encoderPort_eq_ok_iff]
    constructor
    · rintro ⟨w, rfl, hdecode⟩
      exact decodeEncoderPort_eq_iff.1 hdecode
    · rintro ⟨hwf, hcarries, rfl⟩
      obtain ⟨w, hw⟩ := exists_wordBytes_eq_encode (i := i) (by rintro rfl; exact hcarries)
      exact ⟨w, hw, decodeEncoderPort_eq_iff.2 ⟨hwf, hcarries, hw.symm⟩⟩
  | frameStream n pos =>
    rw [decode_frameStream_eq_ok_iff]
    constructor
    · rintro ⟨w, rfl, hdecode⟩
      obtain ⟨hcarries, hbytes⟩ := decodeFrame_eq_ok_iff.1 hdecode
      exact ⟨wellFormed_of_frameStream_carries hcarries, hcarries, hbytes⟩
    · rintro ⟨-, hcarries, rfl⟩
      obtain ⟨w, hw⟩ := exists_wordBytes_eq_encode (i := i) (by rintro rfl; exact hcarries)
      exact ⟨w, hw, decodeFrame_eq_ok_iff.2 ⟨hcarries, hw.symm⟩⟩

theorem command_carries_iff {i : Instr} : Interface.command.Carries i ↔ i = .tick := by
  cases i <;> simp [Interface.Carries]

/-- Settles O2: on the command interface the request is the byte 1, and on a 32-bit interface encoding is one direction of decoding. -/
theorem decodeInvertsEncode : Obligations.DecodeInvertsEncode := by
  intro iface i hwf hcarries
  by_cases hcommand : iface = .command
  · subst hcommand
    obtain rfl := command_carries_iff.1 hcarries
    exact decode_command_eq_ok_iff.2 ⟨rfl, 1, rfl, rfl⟩
  · exact (decode_eq_ok_iff hcommand).2 ⟨hwf, hcarries, rfl⟩

/-- Settles O3: the other direction; the command interface carries its one command, in whatever byte the request bit stands. -/
theorem encodeInvertsDecode : Obligations.EncodeInvertsDecode := by
  intro iface bytes i hdecode
  by_cases hcommand : iface = .command
  · subst hcommand
    obtain ⟨rfl, -⟩ := decode_command_eq_ok_iff.1 hdecode
    exact ⟨trivial, trivial, fun hword => (hword rfl).elim⟩
  · obtain ⟨hwf, hcarries, hbytes⟩ := (decode_eq_ok_iff hcommand).1 hdecode
    exact ⟨hwf, hcarries, fun _ => hbytes⟩

/-! The two words whose value fits more than one row of the operation map (R63, R67). -/

/-- R60, R63: the LED frame of white at brightness 31 has the bits of the end word. -/
theorem ledWordBits_white : ledWordBits 31 255 255 255 = endWordBits := by decide

theorem wordBytes_endWordBits : wordBytes endWordBits = [0xFF#8, 0xFF#8, 0xFF#8, 0xFF#8] := by decide

theorem wordBytes_startWordBits : wordBytes startWordBits = [0#8, 0#8, 0#8, 0#8] := by decide

/-- R62: the mark keeps the start word apart from the LED frames and the end word, so only START has its bytes on the frame stream. -/
theorem encode_eq_startWord_iff {n pos : Nat} {i : Instr} (h : (Interface.frameStream n pos).Carries i) :
    encode i = wordBytes startWordBits ↔ i = .startWord := by
  have hmark : markOf startWordBits ≠ 0b111#3 := by decide
  constructor
  · intro hbytes
    cases i with
    | encode bri r g b => exact h.elim
    | tick => exact h.elim
    | startWord => rfl
    | led bri b g r =>
      have hword : ledWordBits bri b g r = startWordBits := wordBytes_inj.1 hbytes
      exact (hmark (hword ▸ markOf_ledWordBits bri b g r)).elim
    | endWord =>
      have hword : endWordBits = startWordBits := wordBytes_inj.1 hbytes
      exact absurd hword (by decide)
  · rintro rfl; rfl

/-- Settles O4: a position carries white and END by its number alone, and only position 0 carries START. -/
theorem classifiedByPosition : Obligations.ClassifiedByPosition := by
  refine ⟨fun n pos h1 hn => ?whiteFrame, fun n => ?endWord, fun n pos i => ?allZeros⟩
  case whiteFrame =>
    have hbytes : encode (.led 31 255 255 255) = [0xFF#8, 0xFF#8, 0xFF#8, 0xFF#8] := by
      rw [encode, ledWordBits_white, wordBytes_endWordBits]
    exact (decode_eq_ok_iff (by simp)).2 ⟨trivial, ⟨h1, hn⟩, hbytes⟩
  case endWord => exact (decode_eq_ok_iff (by simp)).2 ⟨trivial, rfl, wordBytes_endWordBits⟩
  case allZeros =>
    rw [decode_eq_ok_iff (by simp), ← wordBytes_startWordBits]
    constructor
    · rintro ⟨-, hcarries, hbytes⟩
      obtain rfl := (encode_eq_startWord_iff hcarries).1 hbytes
      exact ⟨hcarries, rfl⟩
    · rintro ⟨rfl, rfl⟩
      exact ⟨trivial, rfl, rfl⟩

/-- Settles O1: the bits of each word are those of its fields, and a refused one fails the check of its row. -/
theorem writtenOutWordsDecode : Obligations.WrittenOutWordsDecode :=
  ⟨rfl, rfl, rfl, rfl, rfl, rfl, rfl, rfl⟩

end Sys2Proof
end

section
/-! The words of a transmission and their form (R67, R70, R108). -/

namespace Sys2Proof.Machine

/-- Settles O37: R67 puts each word of the transmission at its position, so it decodes there, and to an operation with its bytes. -/
theorem wordsDecodeAtTheirPosition : Obligations.WordsDecodeAtTheirPosition := by
  intro s k w hword
  obtain ⟨i, hdecode⟩ := exists_decodeFrame_of_frameAt (State.le_of_word hword) (State.frameAt_word hword)
  obtain ⟨hcarries, hbytes⟩ := decodeFrame_eq_ok_iff.1 hdecode
  exact ⟨i, decode_frameStream_eq_ok_iff.2 ⟨w, rfl, hdecode⟩, hcarries, hbytes⟩

theorem State.exists_phase_of_offered {s : State} {w : Word} (h : s.offered = some w) :
    ∃ k, s.seq = .emit k ∧ s.word k = some w := by
  cases hseq : s.seq with
  | idle => rw [State.offered_idle hseq] at h; cases h
  | emit k => exact ⟨k, rfl, by rw [← State.offered_emit hseq, h]⟩

/-- R63: the end word has the mark of an LED frame. -/
theorem markOf_of_frameAt {n k : Nat} {w : Word} (hk : k ≠ 0) (h : FrameAt n k w) : markOf w = 0b111#3 := by
  rw [FrameAt, if_neg hk] at h
  split_ifs at h with hn
  · exact h
  · subst h; decide

/-- Settles O34: position 0 holds the start word, and every other position a word with the mark. -/
theorem offeredWordsHaveTheirForm : Obligations.OfferedWordsHaveTheirForm := by
  intro s w hoffered
  obtain ⟨k, -, hword⟩ := State.exists_phase_of_offered hoffered
  by_cases hk : k = 0
  · subst hk
    rw [State.word_zero] at hword
    exact .inl (Option.some.inj hword).symm
  · exact .inr (markOf_of_frameAt hk (State.frameAt_word hword))

end Sys2Proof.Machine
end

section
/-! The fields of the frame that ENCODE assembles, and the encoder port's output (R61, R66, R84). -/

namespace Sys2Proof.Machine

theorem toNat_ofNat_5_eq_and (n : Nat) : (BitVec.ofNat 5 n).toNat = n &&& 0x1F :=
  (BitVec.toNat_ofNat n 5).trans (Nat.and_two_pow_sub_one_eq_mod n 5).symm

theorem toNat_ofNat_8_eq_and (n : Nat) : (BitVec.ofNat 8 n).toNat = n &&& 0xFF :=
  (BitVec.toNat_ofNat n 8).trans (Nat.and_two_pow_sub_one_eq_mod n 8).symm

/-- Settles O8: the frame is the LED frame of the operands' low bits, and the low bits are the masked operand. -/
theorem encodeOutputForm : Obligations.EncodeOutputForm := by
  intro bri r g b
  rw [encodeFrame_eq_ledWordBits, briOf_ledWordBits, blueOf_ledWordBits, greenOf_ledWordBits, redOf_ledWordBits]
  exact ⟨markOf_ledWordBits .., toNat_ofNat_5_eq_and bri, toNat_ofNat_8_eq_and b, toNat_ofNat_8_eq_and g,
    toNat_ofNat_8_eq_and r⟩

/-- R66: bits 28:24 of the bus are the low 5 bits of its top byte. -/
theorem setWidth_byte3Of (w : Word) : (byte3Of w).setWidth 5 = briOf w := by
  rw [byte3Of, briOf, BitVec.setWidth_extractLsb'_of_le (by decide)]

/-- R66: the port's output is the LED frame of the bus's own fields. -/
theorem State.encFrame_eq_ledWordBits (s : State) :
    s.encFrame = ledWordBits (briOf s.encIn) (blueOf s.encIn) (greenOf s.encIn) (redOf s.encIn) := by
  rw [← setWidth_byte3Of]
  simp [State.encFrame, encodeFrame_eq_ledWordBits, BitVec.ofNat_toNat]

/-- Bits 28:0 of a word are its fields below the mark. -/
theorem append_fieldsBelowMark (w : Word) : briOf w ++ blueOf w ++ greenOf w ++ redOf w = w.extractLsb' 0 29 := by
  have hbriBlue : briOf w ++ blueOf w = w.extractLsb' 16 (5 + 8) := BitVec.extractLsb'_append_extractLsb'_eq_extractLsb' rfl
  have hbriBlueGreen : w.extractLsb' 16 (5 + 8) ++ greenOf w = w.extractLsb' 8 (5 + 8 + 8) :=
    BitVec.extractLsb'_append_extractLsb'_eq_extractLsb' rfl
  rw [hbriBlue, hbriBlueGreen]
  exact BitVec.extractLsb'_append_extractLsb'_eq_extractLsb' rfl

/-- R66: the port's output is the mark over bits 28:0 of its bus. -/
theorem State.encFrame_eq_append (s : State) : s.encFrame = 0b111#3 ++ s.encIn.extractLsb' 0 29 := by
  rw [State.encFrame_eq_ledWordBits, ← append_fieldsBelowMark, ledWordBits]
  simp only [BitVec.append_assoc, BitVec.cast_eq]

/-- R66: the mask form keeps bits 28:0 of a word and sets the mark. -/
theorem maskForm_eq_append (w : Word) : ((w &&& 0x1FFFFFFF#32) ||| 0xE0000000#32) = 0b111#3 ++ w.extractLsb' 0 29 := by
  have hword : w.extractLsb' 29 3 ++ w.extractLsb' 0 29 = w :=
    (BitVec.extractLsb'_append_extractLsb'_eq_extractLsb' rfl).trans BitVec.extractLsb'_eq_self
  have hkeep : 0x1FFFFFFF#32 = 0#3 ++ BitVec.allOnes 29 := by decide
  have hmark : 0xE0000000#32 = 0b111#3 ++ 0#29 := by decide
  calc (w &&& 0x1FFFFFFF#32) ||| 0xE0000000#32
      = ((w.extractLsb' 29 3 ++ w.extractLsb' 0 29) &&& (0#3 ++ BitVec.allOnes 29)) ||| (0b111#3 ++ 0#29) := by
        rw [hword, hkeep, hmark]
    _ = (w.extractLsb' 29 3 &&& 0#3 ||| 0b111#3) ++ (w.extractLsb' 0 29 &&& BitVec.allOnes 29 ||| 0#29) := by
        rw [BitVec.and_append, BitVec.or_append]
    _ = 0b111#3 ++ w.extractLsb' 0 29 := by
        rw [BitVec.and_zero, BitVec.zero_or, BitVec.and_allOnes, BitVec.or_zero]

/-- Settles O13: the output and the mask form have the same bits 28:0, those of the bus, and no other bit of the bus. -/
theorem encoderPortFunction : Obligations.EncoderPortFunction := by
  intro s
  refine ⟨?maskForm, fun x hx => ?dontCare⟩
  case maskForm => rw [State.encFrame_eq_append, maskForm_eq_append]
  case dontCare => rw [State.encFrame_eq_append, State.encFrame_eq_append, ← hx]

end Sys2Proof.Machine
end

section
/-! What is presented next (R65, R66, R109, R152). -/

namespace Sys2Proof.Machine

/-- A listed event is the next move. -/
theorem State.nextMove_of_head {s : State} {e : Event} (h : s.events.head? = some e) : s.nextMove = s.eventMove e := by
  obtain ⟨es, hes⟩ := List.head?_eq_some_iff.1 h
  rw [State.nextMove, hes]

theorem State.blockMove_request {s : State} (hseq : s.seq = .idle) (hreq : s.tickValid = true) :
    s.blockMove = .present .command [0x01#8] := by
  simp [State.blockMove, hseq, hreq]

theorem State.blockMove_offer {s : State} {k : Nat} {w : Word} (hseq : s.seq = .emit k) (hready : s.frameReady = true)
    (hoffered : s.offered = some w) : s.blockMove = .present (.frameStream s.ringSize k) (wordBytes w) := by
  simp [State.blockMove, hseq, hready, State.offeredBytes, hoffered]

/-- Settles O36: the block's own move presents a held request or the offered word, and a listed event what its agent drives. -/
theorem whatIsPresented : Obligations.WhatIsPresented := by
  refine ⟨fun s hown hseq hreq => ?heldRequest, fun s k w hown hseq hready hoffered => ?offeredWord,
    fun s hevent hinit => ?request, fun s w hevent => ?bus⟩
  case heldRequest => rw [State.nextMove_of_advance hown, State.blockMove_request hseq hreq]
  case offeredWord => rw [State.nextMove_of_advance hown, State.blockMove_offer hseq hready hoffered]
  case request => rw [State.nextMove_of_head hevent, State.eventMove, if_pos hinit]
  case bus => rw [State.nextMove_of_head hevent, State.eventMove]

end Sys2Proof.Machine
end

section
/-! The closed form of the update's ring (R101 to R103, R105, R118). -/

namespace Sys2Proof.Machine

/-- Writing one colour to several slots: each of them that exists holds it, and the other slots are as they were. The order cannot be seen. -/
theorem State.getElem?_ring_foldl_setSlot (slots : List Nat) (s : State) (c : Colour) (i : Nat) :
    (slots.foldl (fun u j => u.setSlot j c) s).ring[i]? =
      if i ∈ slots then s.ring[i]?.map (fun _ => c) else s.ring[i]? := by
  induction slots generalizing s with
  | nil => rfl
  | cons j slots ih =>
    rw [List.foldl_cons, ih, State.setSlot_ring, List.getElem?_set']
    by_cases hj : i = j
    · subst hj; cases s.ring[i]? <;> simp
    · simp [hj, Ne.symm hj]

/-- R103, R118: step 3 writes `SECONDARY` to the secondary slots. -/
theorem State.paintSecondary_eq_foldl {s : State} (h : 1 ≤ s.ringSize) (c : Nat) :
    s.paintSecondary c = (secondarySlots s.ringSize c).foldl (fun u j => u.setSlot j s.secondary) s := by
  have hnext : wrapIndex s.ringSize (c + 1) = (c + 1) % s.ringSize := wrapIndex_natCast s.ringSize (c + 1)
  have hnext2 : wrapIndex s.ringSize (c + 2) = (c + 2) % s.ringSize := wrapIndex_natCast s.ringSize (c + 2)
  have hprev : wrapIndex s.ringSize (c - 1) = (c + 2 * s.ringSize - 1) % s.ringSize :=
    wrapIndex_sub_natCast (k := 1) (by omega)
  have hprev2 : wrapIndex s.ringSize (c - 2) = (c + 2 * s.ringSize - 2) % s.ringSize :=
    wrapIndex_sub_natCast (k := 2) (by omega)
  rw [State.paintSecondary, hnext, hnext2, hprev, hprev2]
  rfl

/-- R101, R102: the ring after steps 1 and 2. -/
theorem State.getElem?_ring_fill_primary {s : State} {i : Nat} (hi : i < s.ringSize) (c : Nat) :
    (s.fillRing.paintPrimary c).ring[i]? = some (if i = c then s.primary else s.fill) := by
  by_cases hc : i = c
  · subst hc; simp [hi]
  · simp [hi, hc, Ne.symm hc]

theorem State.getElem?_pattern {s : State} {i : Nat} (hi : i < s.ringSize) (c : Nat) :
    (s.pattern c)[i]? = some (s.patternColour c i) := by
  simp [State.pattern, hi]

@[simp] theorem State.length_pattern (s : State) (c : Nat) : (s.pattern c).length = s.ringSize := by
  simp [State.pattern]

/-- R105: steps 1 to 3 leave the closed-form ring, whatever ring stood there before. -/
theorem State.updateRing_ring_eq_pattern {s : State} (h : 1 ≤ s.ringSize) : s.updateRing.ring = s.pattern s.cursor := by
  apply List.ext_getElem?
  intro i
  by_cases hi : i < s.ringSize
  · have hpaint := State.paintSecondary_eq_foldl (s := s.fillRing.paintPrimary s.cursor) h s.cursor
    rw [State.updateRing_ring, hpaint, State.getElem?_ring_foldl_setSlot, State.getElem?_ring_fill_primary hi,
      State.getElem?_pattern hi, State.patternColour]
    exact (apply_ite some _ _ _).symm
  · have hlen : s.ringSize ≤ i := Nat.le_of_not_lt hi
    rw [List.getElem?_eq_none (by rw [State.length_updateRing_ring]; exact hlen),
      List.getElem?_eq_none (by rw [State.length_pattern]; exact hlen)]

/-- R100, R105, R109: the state of an accepted request, in closed form. -/
theorem State.beginTick_eq {s : State} (h : 1 ≤ s.ringSize) :
    s.beginTick = { s with
      ring := s.pattern s.cursor, cursor := (s.cursor + 1) % s.ringSize, seq := .emit 0, tickValid := false } := by
  have hcursor : wrapIndex s.ringSize (s.cursor + 1) = (s.cursor + 1) % s.ringSize := wrapIndex_natCast s.ringSize (s.cursor + 1)
  rw [← State.updateRing_ring_eq_pattern h, ← hcursor]
  rfl

end Sys2Proof.Machine
end

section
/-! A tick request that waits (R65, R161). -/

namespace Sys2Proof.Machine

/-- Each effect of a step keeps a held request, but the tick that it is accepted for. -/
theorem StepEffect.tickValid_or_beginTick {e? : Option Event} {u t : State} (h : StepEffect e? u t) (hu : u.tickValid = true) :
    t.tickValid = true ∨ (u.seq = .idle ∧ t = u.beginTick) := by
  cases h with
  | hold => exact .inl hu
  | encode w => exact .inl hu
  | beginTick hseq => exact .inr ⟨hseq, rfl⟩
  | holdRequest => exact .inl rfl
  | accept k w => exact .inl hu
  | sinkReady ready => exact .inl hu
  | reset taken => exact .inl hu
  | endInit ok => exact .inl ((u.endInit_tickValid ok).trans hu)

/-- R65: a request held in IDLE is accepted at the block's next move. -/
theorem step_of_heldRequest {s : State} (hN : s.ringSize ≠ 0) (hseq : s.seq = .idle) (hreq : s.tickValid = true)
    (hown : s.events.head? = none ∨ s.events.head? = some .advance) : step s = .next s.consumeEvent.beginTick :=
  calc step s
    _ = exec .tick s.consumeEvent :=
      step_of_present hN ((State.nextMove_of_advance hown).trans (State.blockMove_request hseq hreq)) decode_command_request
    _ = .next s.consumeEvent.beginTick := execTick_idle hN hseq

/-- Settles O24: a busy block holds the request, which only its acceptance ends. -/
theorem tickRequestWaits : Obligations.TickRequestWaits := by
  refine ⟨fun s hN hbusy => ?waits, fun s hN hbusy hreq => ?secondRequest, fun s t hreq hstep => ?kept,
    fun s hwf hseq hreq hown => ?accepted⟩
  case waits => exact execTick_busy (Nat.ne_of_gt hN) hbusy
  case secondRequest =>
    have hheld : { s with tickValid := true } = s := by rw [← hreq]
    exact (execTick_busy (Nat.ne_of_gt hN) hbusy).trans (congrArg _ hheld)
  case kept =>
    obtain ⟨-, heffect⟩ := step_effect hstep
    obtain hkept | ⟨hseq, rfl⟩ := heffect.tickValid_or_beginTick hreq
    · exact .inl hkept
    · exact .inr ⟨hseq, rfl, rfl, rfl⟩
  case accepted =>
    obtain ⟨hN, -, -, -⟩ := hwf
    rw [step_of_heldRequest (Nat.ne_of_gt hN) hseq hreq hown, State.beginTick_eq (s := s.consumeEvent) hN]
    rfl

end Sys2Proof.Machine
end

section
/-! The Frame Encoder's word as a function of its operands (R68, R80, R83, R85, R87). -/

namespace Sys2Proof.Machine

/-! The word as the OR of its shifted fields. -/

theorem toNat_ledWordBits (bri : BitVec 5) (b g r : Byte) :
    (ledWordBits bri b g r).toNat =
      0xE0000000 ||| (bri.toNat <<< 24) ||| (b.toNat <<< 16) ||| (g.toNat <<< 8) ||| r.toNat := by
  simp only [ledWordBits, BitVec.toNat_append, Nat.shiftLeft_or_distrib, ← Nat.shiftLeft_add]
  rfl

/-- Settles O6: a word is its value, and the value of the LED frame is the OR of the masked operands, each shifted to its place. -/
theorem encodeIsOrOfShiftedFields : Obligations.EncodeIsOrOfShiftedFields := by
  intro bri r g b
  have hvalue : encodeFrame bri r g b = BitVec.ofNat 32 (encodeFrame bri r g b).toNat := by
    rw [BitVec.ofNat_toNat, BitVec.setWidth_eq]
  rw [hvalue, encodeFrame_eq_ledWordBits, toNat_ledWordBits, toNat_ofNat_5_eq_and, toNat_ofNat_8_eq_and,
    toNat_ofNat_8_eq_and, toNat_ofNat_8_eq_and]

/-! Masking. -/

theorem ofNat_add_two_pow_mul (w n k : Nat) : BitVec.ofNat w (n + 2 ^ w * k) = BitVec.ofNat w n := by
  apply BitVec.eq_of_toNat_eq
  rw [BitVec.toNat_ofNat, BitVec.toNat_ofNat, Nat.add_mul_mod_self_left]

/-- R83: a multiple of 32 leaves the low 5 bits of a stored brightness alone. -/
theorem setWidth_add_ofNat_mul (bri : Byte) (k : Nat) : (bri + BitVec.ofNat 8 (32 * k)).setWidth 5 = bri.setWidth 5 := by
  have hzero : BitVec.ofNat 5 (32 * k) = 0#5 := by
    rw [← Nat.zero_add (32 * k)]; exact ofNat_add_two_pow_mul 5 0 k
  rw [BitVec.setWidth_add _ _ (by decide), BitVec.setWidth_ofNat_of_le (by decide), hzero, BitVec.add_zero]

/-- Settles O7: the frame holds the operands modulo 32 and modulo 256. -/
theorem encodeMasksOverflow : Obligations.EncodeMasksOverflow := by
  have h5 (n k : Nat) : BitVec.ofNat 5 (n + 32 * k) = BitVec.ofNat 5 n := ofNat_add_two_pow_mul 5 n k
  have h8 (n k : Nat) : BitVec.ofNat 8 (n + 256 * k) = BitVec.ofNat 8 n := ofNat_add_two_pow_mul 8 n k
  refine ⟨fun k bri r g b => ?naturals, fun k bri c => ?brightnessPort, fun k x => ?channelPort⟩
  case naturals => simp only [encodeFrame_eq_ledWordBits, h5, h8, and_self]
  case brightnessPort => rw [encodeColour_eq_ledWordBits, encodeColour_eq_ledWordBits, setWidth_add_ofNat_mul]
  case channelPort =>
    have hzero : BitVec.ofNat 8 (256 * k) = 0#8 := by rw [← Nat.zero_add (256 * k)]; exact h8 0 k
    rw [hzero, BitVec.add_zero]

/-! ENCODE and the extraction of the fields, as inverses. -/

theorem encodeFrame_toNat (bri : BitVec 5) (r g b : Byte) :
    encodeFrame bri.toNat r.toNat g.toNat b.toNat = ledWordBits bri b g r := by
  simp only [encodeFrame_eq_ledWordBits, BitVec.ofNat_toNat, BitVec.setWidth_eq]

/-- R68: the operands of ENCODE that a frame shows, brightness, red, green and blue. -/
def frameFields (w : Word) : BitVec 5 × Byte × Byte × Byte := (briOf w, redOf w, greenOf w, blueOf w)

theorem frameFields_ledWordBits (bri : BitVec 5) (b g r : Byte) : frameFields (ledWordBits bri b g r) = (bri, r, g, b) := by
  simp only [frameFields, briOf_ledWordBits, redOf_ledWordBits, greenOf_ledWordBits, blueOf_ledWordBits]

theorem encodeFrame_fields {w : Word} (h : markOf w = 0b111#3) :
    encodeFrame (briOf w).toNat (redOf w).toNat (greenOf w).toNat (blueOf w).toNat = w :=
  (encodeFrame_toNat ..).trans (ledWordBits_fields h)

theorem encodeFrame_masked (bri r g b : Nat) :
    encodeFrame bri r g b = encodeFrame (bri &&& 0x1F) (r &&& 0xFF) (g &&& 0xFF) (b &&& 0xFF) := by
  rw [encodeFrame_eq_ledWordBits, ← toNat_ofNat_5_eq_and, ← toNat_ofNat_8_eq_and, ← toNat_ofNat_8_eq_and,
    ← toNat_ofNat_8_eq_and, encodeFrame_toNat]

/-- There are 2^29 masked inputs: 5 bits of brightness and 3 channels of 8 bits. -/
theorem card_maskedInputs : Nat.card (BitVec 5 × Byte × Byte × Byte) = 2 ^ 29 := by
  have hword (n : Nat) : Nat.card (BitVec n) = 2 ^ n := by
    rw [Nat.card_congr BitVec.equivFin.toEquiv, Nat.card_fin]
  rw [Nat.card_prod, Nat.card_prod, Nat.card_prod, hword, hword]
  norm_num

/-- Settles O9: the fields of a frame are its masked inputs, and a word with the mark is the frame of its fields. -/
theorem encodeIsABijection : Obligations.EncodeIsABijection := by
  refine ⟨Set.InvOn.bijOn (f' := frameFields) ⟨?fieldsOfFrame, ?frameOfFields⟩ ?hasMark (Set.mapsTo_univ _ _),
    card_maskedInputs, fun w => encodeFrame_fields, encodeFrame_masked⟩
  case fieldsOfFrame =>
    rintro ⟨bri, r, g, b⟩ -
    exact (congrArg frameFields (encodeFrame_toNat bri r g b)).trans (frameFields_ledWordBits bri b g r)
  case frameOfFields => exact fun w hmark => encodeFrame_fields hmark
  case hasMark =>
    rintro ⟨bri, r, g, b⟩ -
    exact (congrArg markOf (encodeFrame_toNat bri r g b)).trans (markOf_ledWordBits bri b g r)

/-- Settles O11: an LED frame has a mark that the start word does not have. -/
theorem noLedFrameIsTheStartWord : Obligations.NoLedFrameIsTheStartWord := by
  intro bri r g b hstart
  have hmark : markOf (encodeFrame bri r g b) = 0b111#3 := by rw [encodeFrame_eq_ledWordBits, markOf_ledWordBits]
  rw [hstart] at hmark
  exact absurd hmark (by decide)

end Sys2Proof.Machine
end

section
/-! The cases of the shared operations (R8, R109, R140, R147). -/

namespace Sys2Proof.Machine

theorem nextPhase_of_le {n k : Nat} (h : k ≤ n) : nextPhase n k = .emit (k + 1) := if_pos h

theorem nextPhase_end (n : Nat) : nextPhase n (n + 1) = .idle := if_neg (Nat.not_succ_le_self n)

theorem State.submit_of_not_taken {s : State} {k : Nat} {w : Word}
    (h : ¬ (s.seq = .emit k ∧ s.offered = some w ∧ s.frameReady = true)) : s.submit k w = s :=
  if_neg h

theorem State.endInit_of_pending {s : State} (h : s.init = .pending) (ok : Bool) :
    s.endInit ok = { s with init := if ok then .succeeded else .failed } := by
  obtain ⟨-, hends⟩ | ⟨hended, -⟩ := s.endInit_cases ok
  · exact hends
  · exact absurd h hended

theorem State.endInit_of_ended {s : State} (h : s.init ≠ .pending) (ok : Bool) : s.endInit ok = s := by
  obtain ⟨hpending, -⟩ | ⟨-, hkept⟩ := s.endInit_cases ok
  · exact absurd hpending h
  · exact hkept

theorem execTick_emptyRing {s : State} (h : s.ringSize = 0) : execTick s = .refused .emptyRing := if_pos h

end Sys2Proof.Machine
end

section
/-! START, LED and END in their own phase, and the frame that has the end word's bits (R86, R88, R89, R90). -/

namespace Sys2Proof.Machine

/-- R109: with the sink ready, the operation that the phase carries and whose bytes the offered word is has that word accepted. -/
theorem exec_offeredWord {s : State} {k : Nat} {w : Word} {i : Instr} (hseq : s.seq = .emit k) (hready : s.frameReady = true)
    (hword : s.word k = some w) (hcarries : (Interface.frameStream s.ringSize k).Carries i) (hbytes : encode i = wordBytes w) :
    exec i s = .next { s with accepted := s.accepted ++ [w], seq := nextPhase s.ringSize k } := by
  have hdecode : decode (.frameStream s.ringSize k) (wordBytes w) = .ok i :=
    decode_frameStream_eq_ok_iff.2 ⟨w, rfl, decodeFrame_eq_ok_iff.2 ⟨hcarries, hbytes⟩⟩
  rw [← perform_offered hseq hword hready, perform, hdecode]

/-- R90: the LED frame of the slot that the phase names is accepted, and the transmission goes on. -/
theorem exec_led_accepted {s : State} {j : Nat} {c : Colour} {bri : BitVec 5} {b g r : Byte} (hj : j < s.ringSize)
    (hslot : s.ring[j]? = some c) (hseq : s.seq = .emit (j + 1)) (hready : s.frameReady = true)
    (hframe : ledWordBits bri b g r = encodeColour s.brightness c) :
    exec (.led bri b g r) s =
      .next { s with accepted := s.accepted ++ [encodeColour s.brightness c], seq := .emit (j + 2) } := by
  have hword : s.word (j + 1) = some (encodeColour s.brightness c) := by
    rw [s.word_led (Nat.le_add_left 1 j) hj, Nat.add_sub_cancel, hslot, Option.map_some]
  have hcarries : (Interface.frameStream s.ringSize (j + 1)).Carries (.led bri b g r) := ⟨Nat.le_add_left 1 j, hj⟩
  rw [exec_offeredWord hseq hready hword hcarries (congrArg wordBytes hframe), nextPhase_of_le hj]

/-- Settles O28: the start word is offered in EMIT(0). -/
theorem startIsAccepted : Obligations.StartIsAccepted := by
  intro s hseq hready
  rw [exec_offeredWord hseq hready s.word_zero rfl rfl, nextPhase_of_le (Nat.zero_le s.ringSize)]
  rfl

/-- Settles O29: the frame of slot `j` is offered in EMIT(j + 1). -/
theorem ledIsAccepted : Obligations.LedIsAccepted := by
  intro s j c hj hslot hseq hready
  refine exec_led_accepted hj hslot hseq hready ?_
  rw [encodeColour_eq_ledWordBits, BitVec.setWidth_eq_extractLsb' (by decide)]

/-- Settles O30: the end word is offered in EMIT(N + 1). -/
theorem endIsAccepted : Obligations.EndIsAccepted := by
  intro s hseq hready
  rw [exec_offeredWord hseq hready s.word_end rfl rfl, nextPhase_end]
  rfl

/-- R63: an LED frame has the end word's bits only where each of its fields is all ones. -/
theorem ledWordBits_eq_endWordBits_iff {bri : BitVec 5} {b g r : Byte} :
    ledWordBits bri b g r = endWordBits ↔ bri = 31 ∧ b = 255 ∧ g = 255 ∧ r = 255 := by
  constructor
  · intro h
    rw [← ledWordBits_white] at h
    have hfields := congrArg frameFields h
    simp only [frameFields_ledWordBits, Prod.mk.injEq] at hfields
    obtain ⟨hbri, hr, hg, hb⟩ := hfields
    exact ⟨hbri, hb, hg, hr⟩
  · rintro ⟨rfl, rfl, rfl, rfl⟩
    exact ledWordBits_white

theorem encodeFrame_white_eq_endWordBits_iff (bri : Nat) : encodeFrame bri 255 255 255 = endWordBits ↔ bri &&& 0x1F = 31 := by
  rw [encodeFrame_eq_ledWordBits, ledWordBits_eq_endWordBits_iff, ← toNat_ofNat_5_eq_and, ← BitVec.toNat_inj]
  exact and_iff_left ⟨rfl, rfl, rfl⟩

/-- Settles O10: only brightness 31 gives white the end word's bits, 15 does not, and the phase alone says that the word is an LED frame. -/
theorem endWordCollision : Obligations.EndWordCollision := by
  refine ⟨encodeFrame_white_eq_endWordBits_iff, fun c hend => ?reference, fun s k h1 hk hseq hready hwhite hbri => ?byPosition⟩
  case reference =>
    rw [encodeColour_eq_ledWordBits] at hend
    obtain ⟨hbri, -⟩ := ledWordBits_eq_endWordBits_iff.1 hend
    exact absurd hbri (by decide)
  case byPosition =>
    obtain ⟨j, rfl⟩ := Nat.exists_eq_add_of_le' h1
    have hframe : encodeColour s.brightness ⟨255, 255, 255⟩ = endWordBits :=
      (encodeFrame_white_eq_endWordBits_iff s.brightness.toNat).2 hbri
    have haccepted := exec_led_accepted hk hwhite hseq hready (ledWordBits_white.trans hframe.symm)
    rwa [hframe] at haccepted

end Sys2Proof.Machine
end

section
/-! The encoder port beside the Animator (R66, R81, R82, R91). -/

namespace Sys2Proof.Machine

/-! ENCODE as an operation. -/

@[simp] theorem byte3Of_encoderBus (bri r g b : Nat) : byte3Of (encoderBus bri r g b) = BitVec.ofNat 8 bri := byte3Of_append ..
@[simp] theorem blueOf_encoderBus (bri r g b : Nat) : blueOf (encoderBus bri r g b) = BitVec.ofNat 8 b := blueOf_append ..
@[simp] theorem greenOf_encoderBus (bri r g b : Nat) : greenOf (encoderBus bri r g b) = BitVec.ofNat 8 g := greenOf_append ..
@[simp] theorem redOf_encoderBus (bri r g b : Nat) : redOf (encoderBus bri r g b) = BitVec.ofNat 8 r := redOf_append ..

/-- R66, R71: the frame of the operands' low 8 bits, which the bus holds, is that of the operands. -/
theorem State.encFrame_of_encoderBus {s : State} {bri r g b : Nat} (h : s.encIn = encoderBus bri r g b) :
    s.encFrame = encodeFrame bri r g b := by
  rw [State.encFrame_eq_ledWordBits, ← setWidth_byte3Of, h, byte3Of_encoderBus, blueOf_encoderBus, greenOf_encoderBus,
    redOf_encoderBus, BitVec.setWidth_ofNat_of_le (by decide), encodeFrame_eq_ledWordBits]

/-- Settles O14: the next state has the operands on the bus, and everything else as it was. -/
theorem encodeRunsOnEveryInput : Obligations.EncodeRunsOnEveryInput :=
  fun bri r g b s => ⟨{ s with encIn := encoderBus bri r g b }, rfl, State.encFrame_of_encoderBus rfl,
    byte3Of_encoderBus .., blueOf_encoderBus .., greenOf_encoderBus .., redOf_encoderBus .., rfl⟩

/-! The Animator does not read the bus. -/

/-- `s` with `x` on the encoder port's input bus. -/
def State.withEncIn (s : State) (x : Word) : State := { s with encIn := x }

theorem State.withEncIn_submit (s : State) (x : Word) (k : Nat) (w : Word) :
    (s.withEncIn x).submit k w = (s.submit k w).withEncIn x := by
  by_cases htaken : s.seq = .emit k ∧ s.offered = some w ∧ s.frameReady = true
  · obtain ⟨hseq, hoffered, hready⟩ := htaken
    rw [State.submit_accepts hseq hoffered hready, State.submit_accepts (s := s.withEncIn x) hseq hoffered hready]
    rfl
  · rw [State.submit_of_not_taken htaken, State.submit_of_not_taken (s := s.withEncIn x) htaken]

theorem State.withEncIn_endInit (s : State) (x : Word) (ok : Bool) :
    (s.withEncIn x).endInit ok = (s.endInit ok).withEncIn x := by
  by_cases hpending : s.init = .pending
  · rw [State.endInit_of_pending hpending, State.endInit_of_pending (s := s.withEncIn x) hpending]
    rfl
  · rw [State.endInit_of_ended hpending, State.endInit_of_ended (s := s.withEncIn x) hpending]

theorem State.withEncIn_nextMove (s : State) (x : Word) : (s.withEncIn x).nextMove = s.nextMove := rfl

/-- Two outcomes that agree but for the word on the encoder port's input bus. -/
def AgreeButEncIn (o o' : Host.Outcome State Fault Refusal) : Prop :=
  (∃ reason : Refusal, o = .refused reason ∧ o' = .refused reason) ∨
  (∃ (t : State) (y : Word), o = .next t ∧ o' = .next (t.withEncIn y))

theorem AgreeButEncIn.refused (reason : Refusal) : AgreeButEncIn (.refused reason) (.refused reason) :=
  .inl ⟨reason, rfl, rfl⟩

theorem AgreeButEncIn.next {t t' : State} {y : Word} (h : t' = t.withEncIn y) : AgreeButEncIn (.next t) (.next t') :=
  .inr ⟨t, y, rfl, congrArg _ h⟩

theorem execTick_withEncIn (s : State) (x : Word) : AgreeButEncIn (execTick s) (execTick (s.withEncIn x)) := by
  by_cases hN : s.ringSize = 0
  · rw [execTick_emptyRing hN, execTick_emptyRing (s := s.withEncIn x) hN]
    exact .refused _
  by_cases hseq : s.seq = .idle
  · rw [execTick_idle hN hseq, execTick_idle (s := s.withEncIn x) hN hseq]
    exact .next (y := x) rfl
  · rw [execTick_busy hN hseq, execTick_busy (s := s.withEncIn x) hN hseq]
    exact .next (y := x) rfl

theorem execLed_withEncIn (bri : BitVec 5) (b g r : Byte) (s : State) (x : Word) :
    AgreeButEncIn (execLed bri b g r s) (execLed bri b g r (s.withEncIn x)) := by
  have hseq : (s.withEncIn x).seq = s.seq := rfl
  have hN : (s.withEncIn x).ringSize = s.ringSize := rfl
  unfold execLed
  rw [hseq, hN]
  split
  · exact .next rfl
  · split
    · exact .next (s.withEncIn_submit x _ _)
    · exact .next rfl

/-- R91: an operation has the same outcome whatever stood on the bus, but on the bus itself. -/
theorem exec_withEncIn (i : Instr) (s : State) (x : Word) : AgreeButEncIn (exec i s) (exec i (s.withEncIn x)) := by
  cases i with
  | encode bri r g b => exact .next (y := encoderBus bri r g b) rfl
  | tick => exact execTick_withEncIn s x
  | startWord => exact .next (s.withEncIn_submit x _ _)
  | led bri b g r => exact execLed_withEncIn bri b g r s x
  | endWord => exact .next (s.withEncIn_submit x _ _)

theorem perform_withEncIn (m : Move) (s : State) (x : Word) : AgreeButEncIn (perform m s) (perform m (s.withEncIn x)) := by
  cases m with
  | present iface bytes =>
    simp only [perform]
    cases decode iface bytes with
    | ok i => exact exec_withEncIn i s x
    | error e => exact .refused _
  | hold => exact .next (y := x) rfl
  | sinkReady ready => exact .next (y := x) rfl
  | reset taken => exact .next (y := x) rfl
  | endInit ok => exact .next (s.withEncIn_endInit x ok)
  | earlyTick => exact .refused _

theorem step_withEncIn (s : State) (x : Word) : AgreeButEncIn (step s) (step (s.withEncIn x)) := by
  have hN : (s.withEncIn x).ringSize = s.ringSize := rfl
  have hconsume : (s.withEncIn x).consumeEvent = s.consumeEvent.withEncIn x := rfl
  unfold step
  rw [hN, s.withEncIn_nextMove x, hconsume]
  split
  · exact .refused _
  · exact perform_withEncIn s.nextMove s.consumeEvent x

/-! Only the host drives the bus. -/

/-- R82, R91: each effect of a step but the driving of the bus leaves the bus as it was. -/
theorem StepEffect.encIn_eq {e? : Option Event} {u t : State} (h : StepEffect e? u t)
    (hdrive : ∀ w : Word, e? ≠ some (.driveEncoder w)) : t.encIn = u.encIn := by
  cases h with
  | hold => rfl
  | encode w hevent => exact absurd hevent (hdrive w)
  | beginTick => rfl
  | holdRequest => rfl
  | accept k w => rfl
  | sinkReady ready => rfl
  | reset taken => rfl
  | endInit ok => exact u.endInit_encIn ok

theorem State.encFrame_congr {s t : State} (h : t.encIn = s.encIn) : t.encFrame = s.encFrame := by
  rw [State.encFrame, h, State.encFrame]

/-- Settles O15: no outcome of a step depends on the bus, and the port's output is a function of the bus, which only the host drives. -/
theorem encoderPortIsIndependent : Obligations.EncoderPortIsIndependent :=
  ⟨step_withEncIn, fun _ _ hstep hdrive => State.encFrame_congr ((step_effect hstep).2.encIn_eq hdrive)⟩

end Sys2Proof.Machine
end

section
/-! The grammar of the accepted words (R67, R181). -/

namespace Sys2Proof.Machine

theorem transmissionStart_iff {n : Nat} {ws : List Word} :
    TransmissionStart n ws ↔ ws.length ≤ n + 2 ∧ ∀ (i : Nat) (w : Word), ws[i]? = some w → FrameAt n i w := by
  refine and_congr_right fun _ => ⟨fun h i w hw => ?_, fun h i => h i _ (List.getElem?_eq_getElem i.isLt)⟩
  obtain ⟨hi, rfl⟩ := List.getElem?_eq_some_iff.1 hw
  exact h ⟨i, hi⟩

theorem transmissionStart_nil (n : Nat) : TransmissionStart n [] :=
  ⟨Nat.zero_le _, fun i => i.elim0⟩

/-- R67: a transmission that is begun goes on with the word of its next position. -/
theorem TransmissionStart.append_word {n : Nat} {ws : List Word} {w : Word} (h : TransmissionStart n ws)
    (hlen : ws.length ≤ n + 1) (hw : FrameAt n ws.length w) : TransmissionStart n (ws ++ [w]) := by
  rw [transmissionStart_iff] at h ⊢
  obtain ⟨-, hbefore⟩ := h
  refine ⟨by simpa using hlen, fun i v hv => ?_⟩
  obtain hi | rfl | hi := Nat.lt_trichotomy i ws.length
  · rw [List.getElem?_append_left hi] at hv
    exact hbefore i v hv
  · rw [List.getElem?_concat_length] at hv
    exact Option.some.inj hv ▸ hw
  · rw [List.getElem?_eq_none (by simpa using hi)] at hv
    cases hv

/-- `ws` follows the grammar of R67 for a ring of `n` slots, with `k` words of the running transmission at its end and at most `cuts`
transmissions cut short before it. -/
def FollowsGrammar (n cuts : Nat) (ws : List Word) (k : Nat) : Prop :=
  ∃ (done : List (List Word)) (running : List Word),
    ws = done.flatten ++ running ∧
    (∀ t ∈ done, TransmissionStart n t) ∧
    (done.filter (fun t => decide (t.length < n + 2))).length ≤ cuts ∧
    TransmissionStart n running ∧
    running.length = k

theorem State.streamOk_iff (s : State) : s.StreamOk ↔ FollowsGrammar s.ringSize s.draws s.accepted s.sentCount := Iff.rfl

/-- The running transmission takes its next word. -/
theorem FollowsGrammar.append_word {n cuts k : Nat} {ws : List Word} {w : Word} (h : FollowsGrammar n cuts ws k)
    (hk : k ≤ n + 1) (hw : FrameAt n k w) : FollowsGrammar n cuts (ws ++ [w]) (k + 1) := by
  obtain ⟨done, running, rfl, hdone, hcuts, hrunning, rfl⟩ := h
  exact ⟨done, running ++ [w], List.append_assoc .., hdone, hcuts, hrunning.append_word hk hw, List.length_append⟩

/-- The running transmission ends: complete, or as one more that is cut short. -/
theorem FollowsGrammar.endRunning {n cuts cuts' k : Nat} {ws : List Word} (h : FollowsGrammar n cuts ws k) (hle : cuts ≤ cuts')
    (hcut : k < n + 2 → cuts < cuts') : FollowsGrammar n cuts' ws 0 := by
  obtain ⟨done, running, rfl, hdone, hcuts, hrunning, rfl⟩ := h
  refine ⟨done ++ [running], [], by simp, ?starts, ?cuts, transmissionStart_nil n, rfl⟩
  case starts =>
    intro t ht
    obtain ht | ht := List.mem_append.1 ht
    · exact hdone t ht
    · exact List.mem_singleton.1 ht ▸ hrunning
  case cuts =>
    rw [List.filter_append, List.length_append]
    by_cases hshort : running.length < n + 2
    · have hone : ([running].filter (fun t => decide (t.length < n + 2))).length ≤ 1 := List.length_filter_le ..
      have hroom : cuts < cuts' := hcut hshort
      omega
    · simp only [List.filter_singleton, hshort, decide_false]
      exact hcuts.trans hle

/-- R109: the sink's acceptance adds the next word of the running transmission, and the end word completes it. -/
theorem State.StreamOk.accept {u : State} {k : Nat} {w : Word} (hu : u.StreamOk) (hseq : u.seq = .emit k)
    (hword : u.word k = some w) :
    State.StreamOk { u with accepted := u.accepted ++ [w], seq := nextPhase u.ringSize k } := by
  rw [State.streamOk_iff, State.sentCount_of_emit hseq] at hu
  have hnext : FollowsGrammar u.ringSize u.draws (u.accepted ++ [w]) (k + 1) :=
    hu.append_word (State.le_of_word hword) (State.frameAt_word hword)
  by_cases hk : k ≤ u.ringSize
  · rw [nextPhase_of_le hk]
    exact hnext
  · rw [nextPhase, if_neg hk]
    exact hnext.endRunning (Nat.le_refl _) (by omega)

/-- R163: on the edge of a reset the sink takes no word, or the offered one. -/
theorem State.takenOnReset_cases (s : State) (taken : Bool) :
    s.takenOnReset taken = [] ∨ ∃ w, s.offered = some w ∧ s.takenOnReset taken = [w] := by
  unfold State.takenOnReset
  split
  · cases s.offered with
    | none => exact .inl rfl
    | some w => exact .inr ⟨w, rfl, rfl⟩
  · exact .inl rfl

/-- R181: a reset cuts the running transmission short, before or after the word that is taken on its edge. -/
theorem State.StreamOk.resetBlock {u : State} (hu : u.StreamOk) (taken : Bool) : (u.resetBlock taken).StreamOk := by
  rw [State.streamOk_iff] at hu ⊢
  have hmore : u.draws ≤ u.draws + 1 := Nat.le_succ _
  rw [State.resetBlock_accepted]
  obtain htaken | ⟨w, hoffered, htaken⟩ := u.takenOnReset_cases taken
  · rw [htaken, List.append_nil]
    exact hu.endRunning hmore fun _ => Nat.lt_succ_self _
  · obtain ⟨k, hseq, hword⟩ := State.exists_phase_of_offered hoffered
    rw [State.sentCount_of_emit hseq] at hu
    rw [htaken]
    exact (hu.append_word (State.le_of_word hword) (State.frameAt_word hword)).endRunning hmore fun _ => Nat.lt_succ_self _

/-- Each effect of a step keeps the grammar. Only an acceptance and a reset touch the accepted words or their count. -/
theorem StepEffect.keeps_streamOk {e? : Option Event} {u t : State} (h : StepEffect e? u t) (hu : u.StreamOk) :
    t.StreamOk := by
  cases h with
  | hold => exact hu
  | encode w => exact hu
  | beginTick hseq =>
    rw [State.streamOk_iff, State.sentCount_of_idle hseq] at hu
    exact hu
  | holdRequest => exact hu
  | accept k w hseq hword => exact hu.accept hseq hword
  | sinkReady ready => exact hu
  | reset taken => exact hu.resetBlock taken
  | endInit ok =>
    obtain ⟨-, hend⟩ | ⟨-, hend⟩ := u.endInit_cases ok <;> (rw [hend]; exact hu)

/-- Settles O53: an acceptance goes on with the running transmission or completes it, and a reset cuts it short. -/
theorem stepKeepsTheStreamGrammar : Obligations.StepKeepsTheStreamGrammar :=
  fun _ _ hs h => step_keeps (P := State.StreamOk) (fun _ hu => hu) (fun _ heffect hu => heffect.keeps_streamOk hu) h hs

end Sys2Proof.Machine
end

section
/-! Steps 1 to 3 of TICK as writes of one colour to several slots (R101 to R103). -/

namespace Sys2Proof.Machine

/-- Writes of slots touch the ring alone. -/
theorem State.foldl_setSlot_eq (slots : List Nat) (s : State) (c : Colour) :
    slots.foldl (fun u j => u.setSlot j c) s = { s with ring := (slots.foldl (fun u j => u.setSlot j c) s).ring } := by
  induction slots generalizing s with
  | nil => rfl
  | cons j slots ih => rw [List.foldl_cons, ih]; rfl

/-- The order of the writes, and how often a slot is written, cannot be seen. -/
theorem State.foldl_setSlot_congr {slots slots' : List Nat} (h : ∀ i, i ∈ slots ↔ i ∈ slots') (s : State) (c : Colour) :
    slots.foldl (fun u j => u.setSlot j c) s = slots'.foldl (fun u j => u.setSlot j c) s := by
  have hring : (slots.foldl (fun u j => u.setSlot j c) s).ring = (slots'.foldl (fun u j => u.setSlot j c) s).ring := by
    apply List.ext_getElem?
    intro i
    simp only [State.getElem?_ring_foldl_setSlot, h]
  rw [State.foldl_setSlot_eq slots, State.foldl_setSlot_eq slots', hring]

/-- R101: the N writes of step 1, made one by one. -/
theorem State.foldl_setSlot_range_eq_fillRing {s : State} (h : s.ring.length = s.ringSize) :
    (List.range s.ringSize).foldl (fun u j => u.setSlot j s.fill) s = s.fillRing := by
  have hring : ((List.range s.ringSize).foldl (fun u j => u.setSlot j s.fill) s).ring = s.fillRing.ring := by
    apply List.ext_getElem?
    intro i
    rw [State.getElem?_ring_foldl_setSlot, State.fillRing_ring, List.getElem?_replicate]
    by_cases hi : i < s.ringSize
    · simp [hi, h]
    · simp [hi, h]
  rw [State.foldl_setSlot_eq, hring]
  rfl

/-- Settles O16: each slot is written once, in whatever order, with the same colour. -/
theorem fillStep : Obligations.FillStep := by
  refine fun s => ⟨fun i hi => ?everySlot, ?length, fun order horder hlen => ?anyOrder, fun u hN hfill => ?nothingLeft⟩
  case everySlot => simp [hi]
  case length => simp
  case anyOrder => rw [State.foldl_setSlot_congr fun i => horder.mem_iff, State.foldl_setSlot_range_eq_fillRing hlen]
  case nothingLeft => rw [State.fillRing_ring, State.fillRing_ring, hN, hfill]

/-- Settles O17: step 2 writes slot `c` alone, after the fill. -/
theorem primaryStep : Obligations.PrimaryStep := by
  refine fun s c hc => ⟨?slotC, fun i hi hne => ?otherSlots, rfl, rfl⟩
  case slotC => rw [State.getElem?_ring_fill_primary hc, if_pos rfl]
  case otherSlots => rw [State.getElem?_ring_fill_primary hi, if_neg hne]

theorem lt_of_mem_secondarySlots {n c i : Nat} (hn : 1 ≤ n) (h : i ∈ secondarySlots n c) : i < n := by
  simp only [secondarySlots, List.mem_cons, List.not_mem_nil, or_false] at h
  obtain rfl | rfl | rfl | rfl := h <;> exact Nat.mod_lt _ hn

/-- Settles O18: the indices are the secondary slots in the order of R103, and step 3 comes after step 2. -/
theorem secondaryStep : Obligations.SecondaryStep := by
  intro s c hc
  have hN : 1 ≤ s.ringSize := Nat.one_le_of_lt hc
  refine ⟨State.paintSecondary_eq_foldl hN c, fun i => lt_of_mem_secondarySlots hN, fun hlen hmem => ?overwrites, rfl⟩
  case overwrites =>
    rw [State.paintSecondary_eq_foldl (s := s.paintPrimary c) hN, State.getElem?_ring_foldl_setSlot,
      if_pos (show c ∈ secondarySlots (s.paintPrimary c).ringSize c from hmem)]
    simp [hlen, hc]

end Sys2Proof.Machine
end

section
/-! The pattern of a tick in any ring, slot `c` first (R104, R105). -/

namespace Sys2Proof.Machine

/-- The steps of `j` and of `k` slots from slot `c` end in one slot only if they are equal. -/
theorem add_mod_inj {n c j k : Nat} (hj : j < n) (hk : k < n) : (c + j) % n = (c + k) % n ↔ j = k := by
  refine ⟨fun h => ?_, congrArg (fun i => (c + i) % n)⟩
  have hmod : j ≡ k [MOD n] := Nat.ModEq.add_left_cancel' c h
  exact hmod.eq_of_lt_of_lt hj hk

/-- R105: the secondary slots of cursor `c` are those of cursor 0, each `c` slots on. -/
theorem secondarySlots_eq_map {n : Nat} (hn : 1 ≤ n) (c : Nat) :
    secondarySlots n c = (secondarySlots n 0).map (fun j => (c + j) % n) := by
  have hprev : c + 2 * n - 1 = c + (2 * n - 1) := by omega
  have hprev2 : c + 2 * n - 2 = c + (2 * n - 2) := by omega
  simp [secondarySlots, hprev, hprev2]

theorem add_mod_mem_secondarySlots_iff {n c j : Nat} (hj : j < n) :
    (c + j) % n ∈ secondarySlots n c ↔ j ∈ secondarySlots n 0 := by
  have hn : 1 ≤ n := Nat.one_le_of_lt hj
  rw [secondarySlots_eq_map hn c, List.mem_map]
  constructor
  · rintro ⟨k, hk, hsame⟩
    exact (add_mod_inj (lt_of_mem_secondarySlots hn hk) hj).1 hsame ▸ hk
  · exact fun h => ⟨j, h, rfl⟩

theorem mem_secondarySlots_self_iff {n c : Nat} (hc : c < n) : c ∈ secondarySlots n c ↔ 0 ∈ secondarySlots n 0 := by
  have hpos : 0 < n := Nat.zero_lt_of_lt hc
  rw [← add_mod_mem_secondarySlots_iff (c := c) hpos, Nat.add_zero, Nat.mod_eq_of_lt hc]

/-- From N = 3 on the offsets 1, 2, -1, -2 need at most one turn of the ring. -/
theorem secondarySlots_zero {n : Nat} (hn : 3 ≤ n) : secondarySlots n 0 = [1, 2, n - 1, n - 2] := by
  have hprev : (2 * n - 1) % n = n - 1 := by
    rw [Nat.mod_eq_sub_mod (by omega), Nat.mod_eq_of_lt (by omega)]; omega
  have hprev2 : (2 * n - 2) % n = n - 2 := by
    rw [Nat.mod_eq_sub_mod (by omega), Nat.mod_eq_of_lt (by omega)]; omega
  simp only [secondarySlots, Nat.zero_add, hprev, hprev2, Nat.mod_eq_of_lt (show 1 < n by omega),
    Nat.mod_eq_of_lt (show 2 < n by omega)]

/-- R104: only in a ring of one or two slots does a secondary write meet the primary. -/
theorem cursor_mem_secondarySlots_iff {n c : Nat} (hc : c < n) : c ∈ secondarySlots n c ↔ n = 1 ∨ n = 2 := by
  rw [mem_secondarySlots_self_iff hc]
  by_cases hn : 3 ≤ n
  · simp only [secondarySlots_zero hn, List.mem_cons, List.not_mem_nil, or_false]
    omega
  · obtain rfl | rfl : n = 1 ∨ n = 2 := by omega
    · decide
    · decide

/-- R104: the cursor's slot and the four secondary slots are five slots exactly where the ring has as many. -/
theorem nodup_cursor_secondarySlots_iff {n c : Nat} (hc : c < n) : (c :: secondarySlots n c).Nodup ↔ 5 ≤ n := by
  have hn : 1 ≤ n := Nat.one_le_of_lt hc
  have hshift : c :: secondarySlots n c = (0 :: secondarySlots n 0).map (fun j => (c + j) % n) := by
    rw [List.map_cons, ← secondarySlots_eq_map hn, Nat.add_zero, Nat.mod_eq_of_lt hc]
  have hinj : ∀ j ∈ 0 :: secondarySlots n 0, ∀ k ∈ 0 :: secondarySlots n 0, (c + j) % n = (c + k) % n → j = k := by
    have hlt : ∀ j ∈ 0 :: secondarySlots n 0, j < n := List.forall_mem_cons.2 ⟨hn, fun _ => lt_of_mem_secondarySlots hn⟩
    exact fun j hj k hk => (add_mod_inj (hlt j hj) (hlt k hk)).1
  have hfive : (0 :: secondarySlots n 0).Nodup ↔ 5 ≤ n := by
    by_cases h3 : 3 ≤ n
    · simp only [secondarySlots_zero h3, List.nodup_cons, List.mem_cons, List.not_mem_nil, or_false, List.nodup_nil, not_false_eq_true, and_true]
      omega
    · obtain rfl | rfl : n = 1 ∨ n = 2 := by omega
      · decide
      · decide
  rw [hshift, ← hfive]
  exact ⟨List.Nodup.of_map _, List.Nodup.map_on hinj⟩

/-- R105: slot `j`, counted from the cursor, has the colour of slot `j` for cursor 0. -/
theorem State.patternColour_add_mod {s : State} {c j : Nat} (hc : c < s.ringSize) (hj : j < s.ringSize) :
    s.patternColour c ((c + j) % s.ringSize) = s.patternColour 0 j := by
  have hcursor : (c + j) % s.ringSize = c ↔ j = 0 := by
    have h0 : 0 < s.ringSize := Nat.zero_lt_of_lt hc
    simpa [Nat.mod_eq_of_lt hc] using add_mod_inj (c := c) hj h0
  simp only [State.patternColour, add_mod_mem_secondarySlots_iff hj, hcursor]

/-- R104: the ring after steps 1 to 3, slot `c` first, does not depend on the cursor. -/
theorem State.map_updateRing_from_cursor {s : State} (h : s.Wf) :
    (List.range s.ringSize).map (fun j => s.updateRing.ring[(s.cursor + j) % s.ringSize]?) = (s.pattern 0).map some := by
  obtain ⟨hN, -, hcursor, -⟩ := h
  rw [State.pattern, List.map_map]
  refine List.map_congr_left fun j hj => ?_
  rw [State.updateRing_ring_eq_pattern hN, State.getElem?_pattern (Nat.mod_lt _ hN),
    State.patternColour_add_mod hcursor (List.mem_range.1 hj)]
  rfl

/-- The pattern with its fields written out. -/
theorem State.pattern_eq (s : State) (c : Nat) : s.pattern c = (List.range s.ringSize).map (fun i =>
    if i ∈ secondarySlots s.ringSize c then s.secondary else if i = c then s.primary else s.fill) := rfl

/-- Settles O21: the ring from the cursor on is the pattern of cursor 0, and the writes of one colour can be made in any order. -/
theorem smallRingsLastWriteWins : Obligations.SmallRingsLastWriteWins := by
  refine ⟨fun s hwf => ?table, fun n c hc => nodup_cursor_secondarySlots_iff hc, fun s c hc order horder => ?anyOrder⟩
  case table =>
    simp only [State.map_updateRing_from_cursor hwf, State.pattern_eq]
    refine ⟨?_, ?_, ?_, ?_, ?_, ?_⟩ <;> (intro hN; rw [hN]; rfl)
  case anyOrder =>
    rw [State.paintSecondary_eq_foldl (Nat.one_le_of_lt hc)]
    exact State.foldl_setSlot_congr (fun i => horder.mem_iff) s s.secondary

/-- How many slots of the ring are in a list that names each of them once. -/
theorem length_filter_range_mem {n : Nat} {l : List Nat} (hnodup : l.Nodup) (hlt : ∀ i ∈ l, i < n) :
    ((List.range n).filter (fun i => decide (i ∈ l))).length = l.length := by
  refine List.Perm.length_eq ((List.perm_ext_iff_of_nodup (List.nodup_range.filter _) hnodup).2 fun i => ?_)
  simpa using hlt i

theorem length_filter_range_notMem {n : Nat} {l : List Nat} (hnodup : l.Nodup) (hlt : ∀ i ∈ l, i < n) :
    ((List.range n).filter (fun i => decide (i ∉ l))).length = n - l.length := by
  have hsplit := (List.range n).length_eq_length_filter_add (fun i => decide (i ∈ l))
  rw [List.length_range, length_filter_range_mem hnodup hlt] at hsplit
  simp only [decide_not]
  omega

/-- R105: the slots of each colour in a ring of at least five. -/
theorem length_filter_secondarySlots {n c : Nat} (hn : 5 ≤ n) (hc : c < n) :
    ((List.range n).filter (fun i => decide (i ∈ secondarySlots n c))).length = 4 ∧
    ((List.range n).filter (fun i => decide (i ∉ secondarySlots n c ∧ i = c))).length = 1 ∧
    ((List.range n).filter (fun i => decide (i ∉ secondarySlots n c ∧ i ≠ c))).length = n - 5 := by
  have hnodup : (c :: secondarySlots n c).Nodup := (nodup_cursor_secondarySlots_iff hc).2 hn
  have hlt : ∀ i ∈ secondarySlots n c, i < n := fun i => lt_of_mem_secondarySlots (Nat.one_le_of_lt hc)
  have hltAll : ∀ i ∈ c :: secondarySlots n c, i < n := List.forall_mem_cons.2 ⟨hc, hlt⟩
  obtain ⟨hcursor, hnodupS⟩ := List.nodup_cons.1 hnodup
  have hprimary : ∀ i, (i ∉ secondarySlots n c ∧ i = c) ↔ i ∈ [c] := fun i => by
    rw [List.mem_singleton]; exact and_iff_right_of_imp fun hi => hi ▸ hcursor
  have hfill : ∀ i, (i ∉ secondarySlots n c ∧ i ≠ c) ↔ i ∉ c :: secondarySlots n c := fun i => by
    rw [List.mem_cons, not_or, and_comm]
  refine ⟨length_filter_range_mem hnodupS hlt, ?primary, ?fill⟩
  case primary =>
    simp only [hprimary]
    exact length_filter_range_mem (List.nodup_singleton c) (by simpa using hc)
  case fill =>
    simp only [hfill]
    exact length_filter_range_notMem hnodup hltAll

/-- R105: the ring after steps 1 to 3 depends on N, the cursor and the palette alone. -/
theorem State.updateRing_ring_congr {s u : State} (hN : u.ringSize = s.ringSize) (hc : u.cursor = s.cursor)
    (hP : u.primary = s.primary) (hS : u.secondary = s.secondary) (hF : u.fill = s.fill) :
    u.updateRing.ring = s.updateRing.ring := by
  simp only [State.updateRing_ring, State.paintSecondary_ring, State.paintPrimary_ring, State.fillRing_ring,
    State.paintPrimary_ringSize, State.fillRing_ringSize, State.paintPrimary_secondary, State.fillRing_secondary,
    State.fillRing_primary, hN, hc, hP, hS, hF]

/-- Settles O20: the closed form, and the slots of each colour in it. -/
theorem ringAfterTheUpdate : Obligations.RingAfterTheUpdate := by
  rintro s ⟨hN, -, hcursor, -⟩
  exact ⟨State.updateRing_ring_eq_pattern hN, cursor_mem_secondarySlots_iff hcursor,
    fun h5 => length_filter_secondarySlots h5 hcursor, fun _ => State.updateRing_ring_congr⟩

end Sys2Proof.Machine
end

section
/-! TICK as an operation (R100, R106, R109, R117). -/

namespace Sys2Proof.Machine

/-- Settles O23: an idle block begins the tick, in the closed form of R105. -/
theorem tickBegins : Obligations.TickBegins := by
  rintro s ⟨hN, -, -, -⟩ hseq
  rw [← State.beginTick_eq hN]
  exact execTick_idle (Nat.ne_of_gt hN) hseq

/-- Settles O25: an empty ring is refused, an idle block begins the tick, and a busy one holds the request. -/
theorem tickFrame : Obligations.TickFrame := by
  intro s t h
  replace h : execTick s = .next t := h
  by_cases hN : s.ringSize = 0
  · rw [execTick_emptyRing hN] at h
    cases h
  by_cases hseq : s.seq = .idle
  · rw [execTick_idle hN hseq] at h
    obtain rfl := Host.Outcome.next.inj h
    exact ⟨rfl, fun hbusy => absurd hseq hbusy⟩
  · rw [execTick_busy hN hseq] at h
    obtain rfl := Host.Outcome.next.inj h
    exact ⟨rfl, fun _ => ⟨rfl, rfl, rfl⟩⟩

/-- Settles O26: each row of the table is the closed form at its cursor. -/
theorem patternsForTwelve : Obligations.PatternsForTwelve := by
  intro s hwf hN hseq P S F
  refine ⟨_, tickBegins s hwf hseq, ?_⟩
  obtain ⟨-, -, hcursor, -⟩ := hwf
  rw [hN] at hcursor
  simp only [State.pattern_eq, hN]
  generalize s.cursor = c at hcursor ⊢
  interval_cases c <;> exact ⟨rfl, rfl⟩

end Sys2Proof.Machine
end

section
/-! The transitions of the sequencer (R23, R109, R112). -/

namespace Sys2Proof.Machine

/-- What only a tick, an acceptance and a reset move: phase, ring, cursor and accepted words. -/
def State.progress (s : State) : Phase × List Colour × Nat × List Word := (s.seq, s.ring, s.cursor, s.accepted)

theorem State.progress_eq_iff {s t : State} : t.progress = s.progress ↔
    t.seq = s.seq ∧ t.ring = s.ring ∧ t.cursor = s.cursor ∧ t.accepted = s.accepted := by
  simp [State.progress]

/-- The effects of a step as the sequencer sees them (R109): it stays, a tick begins, the sink accepts, or a reset. -/
theorem StepEffect.progress_cases {e? : Option Event} {u t : State} (h : StepEffect e? u t) :
    t.progress = u.progress ∨
    (u.seq = .idle ∧ (u.tickValid = true ∨ e? = some .requestTick) ∧ t = u.beginTick) ∨
    (∃ k w, u.seq = .emit k ∧ u.word k = some w ∧ u.frameReady = true ∧ (e? = none ∨ e? = some .advance) ∧
      t = { u with accepted := u.accepted ++ [w], seq := nextPhase u.ringSize k }) ∨
    (∃ taken, e? = some (.reset taken) ∧ t = u.resetBlock taken) := by
  cases h with
  | hold => exact .inl rfl
  | encode w => exact .inl rfl
  | beginTick hseq hreq => exact .inr (.inl ⟨hseq, hreq.imp_right And.left, rfl⟩)
  | holdRequest => exact .inl rfl
  | accept k w hseq hword hready he => exact .inr (.inr (.inl ⟨k, w, hseq, hword, hready, he, rfl⟩))
  | sinkReady ready => exact .inl rfl
  | reset taken he => exact .inr (.inr (.inr ⟨taken, he, rfl⟩))
  | endInit ok => exact .inl (by simp [State.progress])

/-- Settles O38: the four effects, read on the state before its event is consumed. -/
theorem sequencerTransitions : Obligations.SequencerTransitions := by
  intro s t h
  obtain hstays | ⟨hseq, hreq, rfl⟩ | ⟨k, w, hseq, hword, hready, -, rfl⟩ | ⟨taken, he, rfl⟩ :=
    (step_effect h).2.progress_cases
  · exact .inl (State.progress_eq_iff.1 hstays)
  · exact .inr (.inl ⟨hseq, hreq, rfl, rfl, rfl, rfl⟩)
  · exact .inr (.inr (.inl ⟨k, w, hseq, hword, hready, rfl, rfl, rfl, rfl⟩))
  · exact .inr (.inr (.inr ⟨taken, he, rfl, rfl⟩))

/-- R112: while a word is offered only a reset writes ring or cursor. -/
theorem step_ring_cursor_of_busy {s t : State} (hbusy : s.seq ≠ .idle)
    (hreset : ∀ taken : Bool, s.events.head? ≠ some (.reset taken)) (h : step s = .next t) :
    t.ring = s.ring ∧ t.cursor = s.cursor := by
  obtain ⟨-, hring, hcursor, -⟩ | ⟨hseq, -⟩ | ⟨k, w, -, -, -, -, hring, hcursor, -⟩ | ⟨taken, he, -⟩ :=
    sequencerTransitions s t h
  · exact ⟨hring, hcursor⟩
  · exact absurd hseq hbusy
  · exact ⟨hring, hcursor⟩
  · exact absurd he (hreset taken)

/-- The words of the transmission stay while the ring does, since no step writes the constants. -/
theorem step_word_eq {s t : State} (h : step s = .next t) (hring : t.ring = s.ring) : t.word = s.word := by
  obtain ⟨hN, -, -, -, hbri⟩ := State.constants_eq_iff.1 (step_constants_eq h)
  exact State.word_congr hN hring hbri

/-- Settles O39: ring and cursor stay, and with the ring the words. -/
theorem ringFrozenDuringTransmission : Obligations.RingFrozenDuringTransmission := by
  intro s t hbusy hreset h
  obtain ⟨hring, hcursor⟩ := step_ring_cursor_of_busy hbusy hreset h
  exact ⟨hring, hcursor, congrFun (step_word_eq h hring)⟩

/-- Settles O22: the tick leaves the next cursor, which no word reads, and the transmission leaves it where it is. -/
theorem cursorAdvances : Obligations.CursorAdvances := by
  refine ⟨fun s hwf hseq => ⟨_, tickBegins s hwf hseq, rfl, rfl, fun hN => ?twelve, fun x k => rfl⟩,
    fun s t hbusy hreset h => (step_ring_cursor_of_busy hbusy hreset h).2⟩
  case twelve =>
    obtain ⟨-, -, hcursor, -⟩ := hwf
    simp only [hN] at hcursor ⊢
    split_ifs with hlast <;> omega

/-- R108, R110: the LED frame of a position carries the low 5 bits of the brightness. -/
theorem State.toNat_briOf_word {s : State} {k : Nat} {w : Word} (h1 : 1 ≤ k) (hk : k ≤ s.ringSize) (h : s.word k = some w) :
    (briOf w).toNat = s.brightness.toNat &&& 0x1F := by
  rw [s.word_led h1 hk] at h
  obtain ⟨c, -, rfl⟩ := Option.map_eq_some_iff.1 h
  exact toNat_briOf_encodeColour s.brightness c

/-- Settles O33: a frame carries the masked brightness, which no step writes. -/
theorem oneBrightnessPerTransmission : Obligations.OneBrightnessPerTransmission := by
  refine ⟨fun s k w => State.toNat_briOf_word, fun s t h => ?constant⟩
  case constant =>
    obtain ⟨-, -, -, -, hbri⟩ := State.constants_eq_iff.1 (step_constants_eq h)
    exact hbri

/-- Settles O27: the three positions of R108. -/
theorem wordFunction : Obligations.WordFunction := by
  refine fun s _ => ⟨s.word_zero, fun k c h1 hk hslot => ?ledFrame, s.word_end⟩
  case ledFrame => rw [s.word_led h1 hk, hslot]; rfl

end Sys2Proof.Machine
end

section
/-! A transmission with a ready sink: one move of the block for each word (R107, R109, R149). -/

namespace Sys2Proof.Machine

/-- The phase in which `word(k)` is offered, IDLE past the last word (R23). -/
def phaseAt (n k : Nat) : Phase := if k ≤ n + 1 then .emit k else .idle

theorem phaseAt_of_le {n k : Nat} (h : k ≤ n + 1) : phaseAt n k = .emit k := if_pos h

theorem phaseAt_past_end (n : Nat) : phaseAt n (n + 2) = .idle := if_neg (Nat.not_succ_le_self (n + 1))

/-- R109: an acceptance moves the sequencer one position on. -/
theorem nextPhase_eq_phaseAt (n k : Nat) : nextPhase n k = phaseAt n (k + 1) := by
  simp only [nextPhase, phaseAt, Nat.add_le_add_iff_right]

/-- The next `m` moves are the block's own: they are listed, before `rest`, or no event is listed (log entry 1). -/
def State.OwnMoves (s : State) (m : Nat) (rest : List Event) : Prop :=
  s.events = List.replicate m .advance ++ rest ∨ (s.events = [] ∧ rest = [])

theorem State.OwnMoves.events_eq {s : State} {rest : List Event} (h : s.OwnMoves 0 rest) : s.events = rest := by
  obtain h | ⟨h, rfl⟩ := h
  · exact h
  · exact h

theorem State.OwnMoves.head {s : State} {m : Nat} {rest : List Event} (h : s.OwnMoves (m + 1) rest) :
    s.events.head? = none ∨ s.events.head? = some .advance := by
  obtain h | ⟨h, -⟩ := h
  · exact .inr (by rw [h]; rfl)
  · exact .inl (by rw [h]; rfl)

theorem State.OwnMoves.tail {s t : State} {m : Nat} {rest : List Event} (h : s.OwnMoves (m + 1) rest)
    (ht : t.events = s.events.tail) : t.OwnMoves m rest := by
  obtain h | ⟨h, hrest⟩ := h
  · exact .inl (by rw [ht, h]; rfl)
  · exact .inr ⟨by rw [ht, h]; rfl, hrest⟩

theorem State.Wf.one_le {s : State} (h : s.Wf) : 1 ≤ s.ringSize := h.1

theorem State.Wf.ringSize_ne_zero {s : State} (h : s.Wf) : s.ringSize ≠ 0 := Nat.ne_of_gt h.one_le

theorem State.Wf.cursor_lt {s : State} (h : s.Wf) : s.cursor < s.ringSize := h.2.2.1

theorem State.Wf.phase_le {s : State} {k : Nat} (h : s.Wf) (hseq : s.seq = .emit k) : k ≤ s.ringSize + 1 := by
  obtain ⟨-, -, -, hphase⟩ := h
  rwa [State.PhaseInRange, State.sentCount_of_emit hseq] at hphase

/-- R109, R143: at the block's own move a ready sink takes the offered word. -/
theorem step_accept {s : State} {k : Nat} {w : Word} (hN : s.ringSize ≠ 0) (hseq : s.seq = .emit k) (hword : s.word k = some w)
    (hready : s.frameReady = true) (hown : s.events.head? = none ∨ s.events.head? = some .advance) :
    step s = .next { s with accepted := s.accepted ++ [w], seq := nextPhase s.ringSize k, events := s.events.tail } := by
  have hoffered : s.offered = some w := (State.offered_emit hseq).trans hword
  rw [step, if_neg hN, State.nextMove_of_advance hown, State.blockMove_offer hseq hready hoffered]
  exact perform_offered (u := s.consumeEvent) hseq hword hready

/-- R149: the words from position `k` on are accepted, one at each of the block's moves. -/
theorem run_transmission {m k : Nat} {s : State} {rest : List Event} (hwf : s.Wf) (hk : k + m = s.ringSize + 2)
    (hseq : s.seq = phaseAt s.ringSize k) (hready : s.frameReady = true) (hown : s.OwnMoves m rest) :
    ∃ words : List Word, words.map some = (List.range' k m).map s.word ∧
      Host.Core.run Sys2Proof.core m s = .next { s with seq := .idle, accepted := s.accepted ++ words, events := rest } := by
  induction m generalizing k s with
  | zero =>
    obtain rfl : k = s.ringSize + 2 := hk
    rw [phaseAt_past_end] at hseq
    refine ⟨[], rfl, ?_⟩
    rw [List.append_nil, ← hown.events_eq, ← hseq]
    rfl
  | succ m ih =>
    have hle : k ≤ s.ringSize + 1 := by omega
    rw [phaseAt_of_le hle] at hseq
    obtain ⟨w, hword⟩ := hwf.word_isSome hle
    have hstep := step_accept hwf.ringSize_ne_zero hseq hword hready hown.head
    have hk' : k + 1 + m = s.ringSize + 2 := by omega
    obtain ⟨words, hwords, hrun⟩ := ih (step_keeps_wf hstep hwf) hk' (nextPhase_eq_phaseAt ..) hready (hown.tail rfl)
    refine ⟨w :: words, ?_, ?_⟩
    · rw [List.map_cons, hwords, List.range'_succ, List.map_cons, hword]
      rfl
    · rw [run_succ_of_next hstep, hrun, ← List.append_cons]

/-- Settles O58: R31 has the phase in range, and the sink takes a word at each move. -/
theorem readySinkCompletesTheTick : Obligations.ReadySinkCompletesTheTick := by
  intro s k rest hwf hseq hready hown
  have hle : k ≤ s.ringSize + 1 := hwf.phase_le hseq
  exact run_transmission hwf (by omega) (hseq.trans (phaseAt_of_le hle).symm) hready hown

end Sys2Proof.Machine
end

section
/-! Whole ticks (R100, R107, R114 to R116). -/

namespace Sys2Proof.Machine

/-- R107, R108: the words of a transmission are START, the frame of each slot in index order, and END. -/
theorem State.map_word_range {s : State} (h : s.ring.length = s.ringSize) :
    (List.range' 0 (s.ringSize + 2)).map s.word =
      (startWordBits :: (s.ring.map (encodeColour s.brightness) ++ [endWordBits])).map some := by
  have hsplit : List.range' 0 (s.ringSize + 2) = 0 :: (List.range' 1 s.ringSize ++ [s.ringSize + 1]) := by
    rw [List.range'_succ, List.range'_concat, Nat.one_mul, Nat.add_comm 1]
  have hframes : (List.range' 1 s.ringSize).map s.word = (s.ring.map (encodeColour s.brightness)).map some := by
    refine List.ext_getElem (by simp [h]) fun j hj hj' => ?_
    simp only [List.length_map, List.length_range'] at hj
    have hslot : j < s.ring.length := h ▸ hj
    simp [s.word_led (Nat.le_add_right 1 j) (by omega), hslot]
  rw [hsplit, List.map_cons, List.map_append, hframes, List.map_singleton, s.word_end, s.word_zero]
  simp

/-- R65, R186: the host's request in IDLE, initialisation done, is accepted at once. -/
theorem step_requestTick {s : State} (hN : s.ringSize ≠ 0) (hseq : s.seq = .idle) (hinit : s.init = .succeeded)
    (hevent : s.events.head? = some .requestTick) : step s = .next s.consumeEvent.beginTick := by
  have hmove : s.nextMove = .present .command [0x01#8] := by
    rw [State.nextMove_of_head hevent, State.eventMove, if_pos hinit]
  rw [step_of_present hN hmove decode_command_request]
  exact execTick_idle hN hseq

/-- R105, R109, R116: with a ready sink the transmission of an accepted request completes in N + 2 moves of the block. -/
theorem run_beginTick {u : State} {rest : List Event} (hN : 1 ≤ u.ringSize) (hready : u.frameReady = true)
    (hown : u.OwnMoves (u.ringSize + 2) rest) :
    Host.Core.run Sys2Proof.core (u.ringSize + 2) u.beginTick = .next { u with
      ring := u.pattern u.cursor, cursor := (u.cursor + 1) % u.ringSize, seq := .idle, tickValid := false,
      accepted := u.accepted ++ u.transmission u.cursor, events := rest } := by
  obtain ⟨words, hwords, hrun⟩ :=
    run_transmission (s := u.beginTick) (k := 0) (State.beginTick_wf hN) (Nat.zero_add _) rfl hready hown
  have hpattern : u.beginTick.ring = u.pattern u.cursor := State.updateRing_ring_eq_pattern hN
  have htransmission : words = u.transmission u.cursor := by
    refine List.map_injective_iff.2 (Option.some_injective _) (hwords.trans ?_)
    rw [State.transmission, ← hpattern]
    exact State.map_word_range (s := u.beginTick) u.length_updateRing_ring
  refine hrun.trans ?_
  rw [htransmission, State.beginTick_eq hN]

/-- Settles O55: the request begins the tick, and the sink takes a word at each of the N + 2 moves. -/
theorem wholeTick : Obligations.WholeTick := by
  intro s rest hwf hseq hinit hready hevents
  have hstep := step_requestTick hwf.ringSize_ne_zero hseq hinit (by rw [hevents]; rfl)
  have hown : s.consumeEvent.OwnMoves (s.ringSize + 2) rest :=
    .inl (by rw [State.consumeEvent_events, hevents]; rfl)
  rw [run_succ_of_next hstep, hseq]
  exact run_beginTick hwf.one_le hready hown

/-- R107: the transmission of a tick, word by word. -/
theorem State.getElem?_transmission_slot (s : State) (c : Nat) {j : Nat} (hj : j < s.ringSize) :
    (s.transmission c)[j + 1]? = some (encodeColour s.brightness (s.patternColour c j)) := by
  have hlen : j < ((s.pattern c).map (encodeColour s.brightness)).length := by simpa using hj
  rw [State.transmission, List.getElem?_cons_succ, List.getElem?_append_left hlen, List.getElem?_map,
    State.getElem?_pattern hj, Option.map_some]

theorem State.getElem?_transmission_end (s : State) (c : Nat) : (s.transmission c)[s.ringSize + 1]? = some endWordBits := by
  simp [State.transmission]

theorem State.length_transmission (s : State) (c : Nat) : (s.transmission c).length = s.ringSize + 2 := by
  simp [State.transmission]

/-- Settles O56: the words of the whole tick are those of the pattern that it leaves in the ring. -/
theorem transmissionShape : Obligations.TransmissionShape := by
  intro s rest hwf hseq hinit hready hevents
  have hlen := s.length_transmission s.cursor
  refine ⟨_, s.transmission s.cursor, wholeTick s rest hwf hseq hinit hready hevents, hseq, rfl, hlen,
    fun hN => by rw [hlen, hN], rfl, s.getElem?_transmission_end s.cursor, fun j hj => ?slot⟩
  case slot =>
    exact ⟨s.patternColour s.cursor j, State.getElem?_pattern hj s.cursor, s.getElem?_transmission_slot s.cursor hj⟩

/-- `s` after one tick from IDLE, with the events `rest` left (R105, R106, R116). -/
def State.afterTick (s : State) (rest : List Event) : State :=
  { s with
    ring := s.pattern s.cursor
    cursor := (s.cursor + 1) % s.ringSize
    accepted := s.accepted ++ s.transmission s.cursor
    events := rest }

/-- `s` after `n` ticks from IDLE, with the events `rest` left (R114, R115). -/
def State.afterTicks (s : State) (n : Nat) (rest : List Event) : State :=
  { s with
    ring := if n = 0 then s.ring else s.pattern ((s.cursor + (n - 1)) % s.ringSize)
    cursor := (s.cursor + n) % s.ringSize
    accepted := s.accepted ++ ((List.range n).map (fun j => s.transmission ((s.cursor + j) % s.ringSize))).flatten
    events := rest }

theorem State.afterTicks_zero {s : State} (h : s.cursor < s.ringSize) : s.afterTicks 0 s.events = s := by
  simp [State.afterTicks, Nat.mod_eq_of_lt h]

/-- The cursor of a later tick, counted from the second. -/
theorem cursor_of_later_tick (c n j : Nat) : ((c + 1) % n + j) % n = (c + (j + 1)) % n := by
  rw [Nat.mod_add_mod, Nat.add_assoc, Nat.add_comm 1]

/-- R114: the ring after `n + 1` ticks is the pattern of the last one. -/
theorem State.pattern_of_last_tick {s : State} (h : s.cursor < s.ringSize) (n : Nat) :
    (if n = 0 then s.pattern s.cursor else s.pattern (((s.cursor + 1) % s.ringSize + (n - 1)) % s.ringSize)) =
      s.pattern ((s.cursor + n) % s.ringSize) := by
  cases n with
  | zero => rw [if_pos rfl, Nat.add_zero, Nat.mod_eq_of_lt h]
  | succ n => rw [if_neg (Nat.succ_ne_zero n), cursor_of_later_tick, Nat.add_sub_cancel]

/-- R115: the words of `n + 1` ticks are those of the first and of the `n` later ones. -/
theorem State.transmissions_succ {s : State} (h : s.cursor < s.ringSize) (n : Nat) :
    s.transmission s.cursor ++
      ((List.range n).map (fun j => s.transmission (((s.cursor + 1) % s.ringSize + j) % s.ringSize))).flatten =
      ((List.range (n + 1)).map (fun j => s.transmission ((s.cursor + j) % s.ringSize))).flatten := by
  simp only [cursor_of_later_tick, List.range_succ_eq_map, List.map_cons, List.map_map, List.flatten_cons, Nat.add_zero,
    Nat.mod_eq_of_lt h]
  rfl

/-- R114, R115: one tick and `n` more are `n + 1` ticks. -/
theorem State.afterTicks_afterTick {s : State} (h : s.cursor < s.ringSize) (n : Nat) (es rest : List Event) :
    (s.afterTick es).afterTicks n rest = s.afterTicks (n + 1) rest := by
  rw [State.afterTicks, State.afterTicks, if_neg (Nat.succ_ne_zero n), Nat.add_sub_cancel, ← State.pattern_of_last_tick h n,
    ← State.transmissions_succ h n, ← cursor_of_later_tick s.cursor s.ringSize n, ← List.append_assoc]
  rfl

/-- The whole tick of a host that holds no further request. -/
theorem run_tick {s : State} {rest : List Event} (hwf : s.Wf) (hseq : s.seq = .idle) (hinit : s.init = .succeeded)
    (hready : s.frameReady = true) (hreq : s.tickValid = false) (hevents : s.events = tickEvents s.ringSize ++ rest) :
    Host.Core.run Sys2Proof.core (s.ringSize + 3) s = .next (s.afterTick rest) := by
  rw [wholeTick s rest hwf hseq hinit hready hevents, ← hreq]
  rfl

theorem State.afterTick_wf {s : State} (hN : 1 ≤ s.ringSize) (hseq : s.seq = .idle) (rest : List Event) :
    (s.afterTick rest).Wf := by
  refine ⟨hN, s.length_pattern s.cursor, Nat.mod_lt _ hN, ?_⟩
  rw [State.PhaseInRange, State.sentCount_of_idle (s := s.afterTick rest) hseq]
  exact Nat.zero_le _

/-- Settles O57: the first tick, then `n` more from the state it leaves. -/
theorem runOfTicks : Obligations.RunOfTicks := by
  intro n s rest hwf hseq hinit hready hreq hevents
  change Host.Core.run Sys2Proof.core (n * (s.ringSize + 3)) s = .next (s.afterTicks n rest)
  induction n generalizing s with
  | zero =>
    obtain rfl : s.events = rest := hevents
    rw [State.afterTicks_zero hwf.cursor_lt, Nat.zero_mul]
    rfl
  | succ n ih =>
    have hlater : (HostCommand.tick (n + 1)).events s.ringSize ++ rest =
        tickEvents s.ringSize ++ ((HostCommand.tick n).events s.ringSize ++ rest) := List.append_assoc ..
    have hfirst := run_tick hwf hseq hinit hready hreq (hevents.trans hlater)
    rw [Nat.succ_mul, Nat.add_comm, run_add_of_next hfirst, ← State.afterTicks_afterTick hwf.cursor_lt]
    exact ih _ (State.afterTick_wf hwf.one_le hseq _) hseq hinit hready hreq rfl

end Sys2Proof.Machine
end

section
/-! The ring in IDLE is not observed (R33, R119, R183). -/

namespace Sys2Proof.Machine

/-- `s` with another ring. -/
def State.withRing (s : State) (ring : List Colour) : State := { s with ring := ring }

theorem State.withRing_self {s : State} {ring : List Colour} (h : ring = s.ring) : s.withRing ring = s := by
  rw [h]; rfl

/-- Two outcomes that agree but for the ring, and in the ring too unless the block is in IDLE. -/
def AgreeButIdleRing (o o' : Host.Outcome State Fault Refusal) : Prop :=
  (∃ reason : Refusal, o = .refused reason ∧ o' = .refused reason) ∨
  (∃ (t : State) (ring : List Colour), o = .next t ∧ o' = .next (t.withRing ring) ∧ (t.seq ≠ .idle → ring = t.ring))

theorem AgreeButIdleRing.refused (reason : Refusal) : AgreeButIdleRing (.refused reason) (.refused reason) :=
  .inl ⟨reason, rfl, rfl⟩

theorem AgreeButIdleRing.next {t : State} {ring : List Colour} (h : t.seq ≠ .idle → ring = t.ring) :
    AgreeButIdleRing (.next t) (.next (t.withRing ring)) :=
  .inr ⟨t, ring, rfl, rfl, h⟩

theorem AgreeButIdleRing.next_idle {t : State} (h : t.seq = .idle) (ring : List Colour) :
    AgreeButIdleRing (.next t) (.next (t.withRing ring)) :=
  .next fun hbusy => absurd h hbusy

theorem AgreeButIdleRing.same (o : Host.Outcome State Fault Refusal) : AgreeButIdleRing o o := by
  cases o with
  | next t => exact .next (ring := t.ring) fun _ => rfl
  | fault f => cases f
  | refused reason => exact .refused reason

/-! In IDLE no move reads the ring, and those that write it write the whole of it. -/

theorem State.submit_of_idle {s : State} (h : s.seq = .idle) (k : Nat) (w : Word) : s.submit k w = s :=
  State.submit_of_not_taken fun ⟨hk, _⟩ => by rw [h] at hk; cases hk

theorem State.takenOnReset_of_idle {s : State} (h : s.seq = .idle) (taken : Bool) : s.takenOnReset taken = [] := by
  simp [State.takenOnReset, State.offered_idle h]

theorem execLed_of_idle {s : State} (h : s.seq = .idle) (bri : BitVec 5) (b g r : Byte) : execLed bri b g r s = .next s := by
  simp only [execLed, h]

theorem State.endInit_withRing (s : State) (ring : List Colour) (ok : Bool) : (s.withRing ring).endInit ok = (s.endInit ok).withRing ring := by
  by_cases hpending : s.init = .pending
  · rw [State.endInit_of_pending hpending, State.endInit_of_pending (s := s.withRing ring) hpending]
    rfl
  · rw [State.endInit_of_ended hpending, State.endInit_of_ended (s := s.withRing ring) hpending]

section
variable {s : State} (hidle : s.seq = .idle) (ring : List Colour)
include hidle

theorem execTick_withRing : AgreeButIdleRing (execTick s) (execTick (s.withRing ring)) := by
  by_cases hN : s.ringSize = 0
  · rw [execTick_emptyRing hN, execTick_emptyRing (s := s.withRing ring) hN]
    exact .refused _
  · rw [execTick_idle hN hidle, execTick_idle (s := s.withRing ring) hN hidle]
    exact .same (.next s.beginTick)

/-- R151: in IDLE no word is offered, so START, LED and END change nothing, and TICK fills the ring first (R101). -/
theorem exec_withRing (i : Instr) : AgreeButIdleRing (exec i s) (exec i (s.withRing ring)) := by
  have hidle' : (s.withRing ring).seq = .idle := hidle
  cases i with
  | encode bri r g b => exact .next_idle (t := { s with encIn := encoderBus bri r g b }) hidle ring
  | tick => exact execTick_withRing hidle ring
  | startWord =>
    simp only [exec, execStart, State.submit_of_idle hidle, State.submit_of_idle hidle']
    exact .next_idle hidle ring
  | led bri b g r =>
    simp only [exec, execLed_of_idle hidle, execLed_of_idle hidle']
    exact .next_idle hidle ring
  | endWord =>
    simp only [exec, execEnd, State.submit_of_idle hidle, State.submit_of_idle hidle']
    exact .next_idle hidle ring

theorem State.resetBlock_withRing (taken : Bool) : (s.withRing ring).resetBlock taken = s.resetBlock taken := by
  rw [State.resetBlock, State.resetBlock, State.takenOnReset_of_idle hidle,
    State.takenOnReset_of_idle (s := s.withRing ring) hidle]
  rfl

theorem perform_withRing (m : Move) : AgreeButIdleRing (perform m s) (perform m (s.withRing ring)) := by
  cases m with
  | present iface bytes =>
    simp only [perform]
    cases decode iface bytes with
    | ok i => exact exec_withRing hidle ring i
    | error e => exact .refused _
  | hold => exact .next_idle hidle ring
  | sinkReady ready => exact .next_idle (t := { s with frameReady := ready }) hidle ring
  | reset taken =>
    simp only [perform, State.resetBlock_withRing hidle]
    exact .same _
  | endInit ok =>
    simp only [perform, State.endInit_withRing]
    exact .next_idle ((s.endInit_seq ok).trans hidle) ring
  | earlyTick => exact .refused _

theorem State.nextMove_withRing : (s.withRing ring).nextMove = s.nextMove := by
  have hblock : (s.withRing ring).blockMove = s.blockMove := by
    simp only [State.blockMove, State.withRing, hidle]
  have hevents : (s.withRing ring).events = s.events := rfl
  unfold State.nextMove
  rw [hevents]
  split
  · exact hblock
  · next e es _ =>
    cases e with
    | advance => exact hblock
    | requestTick => rfl
    | driveEncoder w => rfl
    | sinkReady ready => rfl
    | reset taken => rfl
    | initialise ok => rfl
    | wait ms => rfl

end

/-- R119: a step from states that differ in the ring only in IDLE leaves such states. -/
theorem step_withRing {s : State} {ring : List Colour} (h : s.seq ≠ .idle → ring = s.ring) :
    AgreeButIdleRing (step s) (step (s.withRing ring)) := by
  by_cases hidle : s.seq = .idle
  · have hN : (s.withRing ring).ringSize = s.ringSize := rfl
    unfold step
    rw [State.nextMove_withRing hidle, hN]
    split
    · exact .refused _
    · exact perform_withRing (s := s.consumeEvent) hidle ring s.nextMove
  · rw [State.withRing_self (h hidle)]
    exact .same _

theorem run_withRing (m : Nat) {s : State} {ring : List Colour} (h : s.seq ≠ .idle → ring = s.ring) :
    AgreeButIdleRing (Host.Core.run Sys2Proof.core m s) (Host.Core.run Sys2Proof.core m (s.withRing ring)) := by
  induction m generalizing s ring with
  | zero => exact .next h
  | succ m ih =>
    obtain ⟨reason, hs, hs'⟩ | ⟨t, ring', hs, hs', ht⟩ := step_withRing h
    · rw [run_succ_of_refused hs, run_succ_of_refused hs']
      exact .refused reason
    · rw [run_succ_of_next hs, run_succ_of_next hs']
      exact ih ht

/-- Settles O59: each step keeps the agreement, and in IDLE nothing is asked of the ring. -/
theorem idleRingIsUnobservable : Obligations.IdleRingIsUnobservable :=
  fun _ _ m hidle => run_withRing m fun hbusy => absurd hidle hbusy

end Sys2Proof.Machine
end

section
/-! What a run under a fair sink keeps (R31, R149, R186). -/

namespace Sys2Proof.Machine

theorem StepEffect.events_eq {e? : Option Event} {u t : State} (h : StepEffect e? u t) : t.events = u.events := by
  cases h with
  | hold => rfl
  | encode w => rfl
  | beginTick => rfl
  | holdRequest => rfl
  | accept k w => rfl
  | sinkReady ready => rfl
  | reset taken => rfl
  | endInit ok => exact u.endInit_events ok

/-- A step consumes its event, and no agent lists another one. -/
theorem step_events {s t : State} (h : step s = .next t) : t.events = s.events.tail := (step_effect h).2.events_eq

theorem step_keeps_noReset {s t : State} (h : step s = .next t) (hs : ∀ taken : Bool, .reset taken ∉ s.events) :
    ∀ taken : Bool, .reset taken ∉ t.events :=
  fun taken hmem => hs taken (List.mem_of_mem_tail (step_events h ▸ hmem))

/-- R186: each effect of a step keeps initialisation first. -/
theorem StepEffect.keeps_initFirst {e? : Option Event} {u t : State} (h : StepEffect e? u t) (hu : u.InitFirst) :
    t.InitFirst := by
  obtain hdone | ⟨hidle, hnoRequest, hnoWord⟩ := hu
  · cases h with
    | endInit ok =>
      have hended : u.init ≠ .pending := by rw [hdone]; decide
      exact .inl (by rw [State.endInit_of_ended hended, hdone])
    | hold => exact .inl hdone
    | encode w => exact .inl hdone
    | beginTick => exact .inl hdone
    | holdRequest => exact .inl hdone
    | accept k w => exact .inl hdone
    | sinkReady ready => exact .inl hdone
    | reset taken => exact .inl hdone
  · cases h with
    | beginTick hseq hreq =>
      obtain hheld | ⟨-, hdone⟩ := hreq
      · exact absurd (hheld.symm.trans hnoRequest) (by decide)
      · exact .inl hdone
    | holdRequest hbusy => exact absurd hidle hbusy
    | accept k w hseq => exact absurd (hidle.symm.trans hseq) (by simp)
    | reset taken =>
      refine .inr ⟨rfl, hnoRequest, ?_⟩
      rw [State.resetBlock_accepted, State.takenOnReset_of_idle hidle, hnoWord, List.append_nil]
    | endInit ok => exact .inr (by simp [hidle, hnoRequest, hnoWord])
    | hold => exact .inr ⟨hidle, hnoRequest, hnoWord⟩
    | encode w => exact .inr ⟨hidle, hnoRequest, hnoWord⟩
    | sinkReady ready => exact .inr ⟨hidle, hnoRequest, hnoWord⟩

theorem State.InitFirst.succeeded {s : State} {k : Nat} (h : s.InitFirst) (hseq : s.seq = .emit k) : s.init = .succeeded := by
  obtain hdone | ⟨hidle, -⟩ := h
  · exact hdone
  · exact absurd (hidle.symm.trans hseq) (by simp)

theorem step_keeps_initFirst {s t : State} (h : step s = .next t) (hs : s.InitFirst) : t.InitFirst :=
  step_keeps (P := State.InitFirst) (fun _ hu => hu) (fun _ heffect hu => heffect.keeps_initFirst hu) h hs

/-! The level of `frame_ready` (R152). -/

theorem StepEffect.frameReady_eq {e? : Option Event} {u t : State} (h : StepEffect e? u t)
    (hdrive : ∀ ready : Bool, e? ≠ some (.sinkReady ready)) : t.frameReady = u.frameReady := by
  cases h with
  | hold => rfl
  | encode w => rfl
  | beginTick => rfl
  | holdRequest => rfl
  | accept k w => rfl
  | sinkReady ready he => exact absurd he (hdrive ready)
  | reset taken => rfl
  | endInit ok => exact u.endInit_frameReady ok

theorem step_sinkReady {s : State} {ready : Bool} (hN : s.ringSize ≠ 0) (h : s.events.head? = some (.sinkReady ready)) :
    step s = .next { s.consumeEvent with frameReady := ready } := by
  rw [step, if_neg hN, State.nextMove_of_head h]
  rfl

theorem readyAfter_of_head {ready ready' : Bool} {es : List Event} (h : es.head? = some (.sinkReady ready')) :
    readyAfter ready es = readyAfter ready' es.tail := by
  obtain ⟨es, rfl⟩ := List.head?_eq_some_iff.1 h
  rfl

theorem readyAfter_tail {ready : Bool} {es : List Event} (h : ∀ ready' : Bool, es.head? ≠ some (.sinkReady ready')) :
    readyAfter ready es = readyAfter ready es.tail := by
  cases es with
  | nil => rfl
  | cons e es =>
    cases e with
    | sinkReady ready' => exact absurd rfl (h ready')
    | advance => rfl
    | requestTick => rfl
    | driveEncoder w => rfl
    | reset taken => rfl
    | initialise ok => rfl
    | wait ms => rfl

/-- The level that the listed events leave is the same before and after each of them. -/
theorem step_readyAfter {s t : State} (h : step s = .next t) :
    readyAfter t.frameReady t.events = readyAfter s.frameReady s.events := by
  obtain ⟨hN, heffect⟩ := step_effect h
  rw [step_events h]
  by_cases hdrive : ∃ ready, s.events.head? = some (.sinkReady ready)
  · obtain ⟨ready, hhead⟩ := hdrive
    obtain rfl := Host.Outcome.next.inj ((step_sinkReady hN hhead).symm.trans h)
    exact (readyAfter_of_head hhead).symm
  · have hother : ∀ ready, s.events.head? ≠ some (.sinkReady ready) := not_exists.1 hdrive
    rw [heffect.frameReady_eq hother]
    exact (readyAfter_tail hother).symm

/-! A step that is not refused (R8, R31, R186). -/

theorem exists_execTick {s : State} (hN : s.ringSize ≠ 0) : ∃ t, execTick s = .next t := by
  by_cases hidle : s.seq = .idle
  · exact ⟨_, execTick_idle hN hidle⟩
  · exact ⟨_, execTick_busy hN hidle⟩

/-- R109: in a state that meets R31 the block's own move is not refused. -/
theorem exists_perform_blockMove {s : State} (h : s.Wf) : ∃ t, perform s.blockMove s.consumeEvent = .next t := by
  cases hseq : s.seq with
  | idle =>
    by_cases hreq : s.tickValid = true
    · rw [State.blockMove_request hseq hreq]
      exact exists_execTick (s := s.consumeEvent) h.ringSize_ne_zero
    · exact ⟨_, by simp only [State.blockMove, hseq, if_neg hreq]; rfl⟩
  | emit k =>
    by_cases hready : s.frameReady = true
    · obtain ⟨w, hword⟩ := h.word_isSome (h.phase_le hseq)
      rw [State.blockMove_offer hseq hready ((State.offered_emit hseq).trans hword)]
      exact ⟨_, perform_offered (u := s.consumeEvent) hseq hword hready⟩
    · exact ⟨_, by simp only [State.blockMove, hseq, if_neg hready]; rfl⟩

/-- Only a request before initialisation has succeeded stops a state that meets R31. -/
theorem exists_step {s : State} (h : s.Wf) (hinit : s.init = .succeeded) : ∃ t, step s = .next t := by
  have hN := h.ringSize_ne_zero
  rw [step, if_neg hN, State.nextMove]
  split
  · exact exists_perform_blockMove h
  · next e es _ =>
    cases e with
    | advance => exact exists_perform_blockMove h
    | requestTick =>
      rw [State.eventMove, if_pos hinit]
      exact exists_execTick (s := s.consumeEvent) hN
    | driveEncoder w => exact ⟨_, by rw [State.eventMove, perform, decode_encoderPort_wordBytes]; rfl⟩
    | sinkReady ready => exact ⟨_, rfl⟩
    | reset taken => exact ⟨_, rfl⟩
    | initialise ok => exact ⟨_, rfl⟩
    | wait ms => exact ⟨_, rfl⟩

end Sys2Proof.Machine
end

section
/-! A fair sink completes a transmission (R149). -/

namespace Sys2Proof.Machine

/-! The assumption is met where the listed events leave the sink ready. -/

/-- R142: a word that the sink does not take is offered again, unless a reset withdraws it. -/
theorem step_keeps_offered {s t : State} {w : Word} (hoffered : s.offered = some w) (htakes : ¬ s.SinkTakes w)
    (hreset : ∀ taken : Bool, s.events.head? ≠ some (.reset taken)) (h : step s = .next t) :
    t.seq = s.seq ∧ t.offered = some w := by
  obtain ⟨k, hseq, hword⟩ := State.exists_phase_of_offered hoffered
  obtain hstays | ⟨hidle, -⟩ | ⟨k', w', hseq', hword', hready, hown, -⟩ | ⟨taken, he, -⟩ := (step_effect h).2.progress_cases
  · obtain ⟨hseqt, hring, -, -⟩ := State.progress_eq_iff.1 hstays
    refine ⟨hseqt, ?_⟩
    rw [State.offered_emit (hseqt.trans hseq), step_word_eq h hring, hword]
  · exact absurd (hidle.symm.trans hseq) (by simp)
  · exact absurd ⟨hoffered, hready, hown⟩ htakes
  · exact absurd he (hreset taken)

/-- R149: by the end of the listed events the sink takes the word, or a reset withdraws it. -/
theorem exists_run_sinkTakes {es : List Event} {s : State} {w : Word} (hevents : s.events = es) (hwf : s.Wf)
    (hinit : s.InitFirst) (hends : s.SinkEndsReady) (hoffered : s.offered = some w) :
    ∃ (n : Nat) (u : State), Host.Core.run Sys2Proof.core n s = .next u ∧ u.seq = s.seq ∧
      (u.SinkTakes w ∨ ∃ taken : Bool, u.events.head? = some (.reset taken)) := by
  induction es generalizing s with
  | nil =>
    have hready : s.frameReady = true := by rwa [State.SinkEndsReady, hevents] at hends
    exact ⟨0, s, rfl, rfl, .inl ⟨hoffered, hready, .inl (by rw [hevents]; rfl)⟩⟩
  | cons e es ih =>
    by_cases hnow : s.SinkTakes w ∨ ∃ taken : Bool, s.events.head? = some (.reset taken)
    · exact ⟨0, s, rfl, rfl, hnow⟩
    obtain ⟨htakes, hreset⟩ := not_or.1 hnow
    obtain ⟨k, hseq, -⟩ := State.exists_phase_of_offered hoffered
    obtain ⟨t, hstep⟩ := exists_step hwf (hinit.succeeded hseq)
    obtain ⟨hseqt, hofferedt⟩ := step_keeps_offered hoffered htakes (not_exists.1 hreset) hstep
    have heventst : t.events = es := by rw [step_events hstep, hevents]; rfl
    obtain ⟨n, u, hrun, hsequ, hu⟩ := ih heventst (step_keeps_wf hstep hwf) (step_keeps_initFirst hstep hinit)
      ((step_readyAfter hstep).trans hends) hofferedt
    exact ⟨n + 1, u, by rw [run_succ_of_next hstep, hrun], hsequ.trans hseqt, hu⟩

theorem State.sinkFair_of_sinkEndsReady {s : State} (hwf : s.Wf) (hinit : s.InitFirst) (hends : s.SinkEndsReady) : s.SinkFair :=
  fun _ _ _ hrun hoffered => exists_run_sinkTakes rfl (run_keeps step_keeps_wf hrun hwf)
    (run_keeps step_keeps_initFirst hrun hinit)
    (run_keeps (P := State.SinkEndsReady) (fun hstep hs => (step_readyAfter hstep).trans hs) hrun hends) hoffered

/-! Under the assumption the words are accepted one after the other. -/

theorem State.SinkFair.of_run {m : Nat} {s t : State} (h : s.SinkFair) (hrun : Host.Core.run Sys2Proof.core m s = .next t) :
    t.SinkFair :=
  fun n _ _ hrun' => h (m + n) _ _ ((run_add_of_next hrun).trans hrun')

theorem run_constants_eq {m : Nat} {s t : State} (h : Host.Core.run Sys2Proof.core m s = .next t) :
    t.constants = s.constants :=
  run_keeps (P := fun u => u.constants = s.constants) (fun hstep hu => (step_constants_eq hstep).trans hu) h rfl

/-- `s` offered `w` in EMIT(k), and the sink has taken it: `t` is one position on, with the ring and the cursor of `s`. -/
def HasTaken (s : State) (k : Nat) (w : Word) (t : State) : Prop :=
  t.progress = (nextPhase s.ringSize k, s.ring, s.cursor, s.accepted ++ [w])

/-- R112, R142: a run without a reset keeps the word offered, or at some point the sink has taken it. -/
theorem run_stays_or_takes {n k : Nat} {s u : State} {w : Word} (hseq : s.seq = .emit k) (hword : s.word k = some w)
    (hreset : ∀ taken : Bool, .reset taken ∉ s.events) (hrun : Host.Core.run Sys2Proof.core n s = .next u) :
    u.progress = s.progress ∨ ∃ (m : Nat) (t : State), Host.Core.run Sys2Proof.core m s = .next t ∧ HasTaken s k w t := by
  induction n generalizing s with
  | zero =>
    obtain rfl : s = u := Host.Outcome.next.inj hrun
    exact .inl rfl
  | succ n ih =>
    obtain ⟨v, hstep, hrest⟩ := step_of_run_succ hrun
    obtain hstays | ⟨hidle, -⟩ | ⟨k', w', hseq', hword', -, -, rfl⟩ | ⟨taken, he, -⟩ := (step_effect hstep).2.progress_cases
    · obtain ⟨hseqv, hringv, hcursorv, hacceptedv⟩ := State.progress_eq_iff.1 hstays
      obtain ⟨hNv, -⟩ := State.constants_eq_iff.1 (step_constants_eq hstep)
      have hwordv : v.word k = some w := (congrFun (step_word_eq hstep hringv) k).trans hword
      obtain hu | ⟨m, t, hrunt, ht⟩ := ih (hseqv.trans hseq) hwordv (step_keeps_noReset hstep hreset) hrest
      · exact .inl (hu.trans hstays)
      · refine .inr ⟨m + 1, t, by rw [run_succ_of_next hstep, hrunt], ?_⟩
        rwa [HasTaken, hNv, hringv, hcursorv, hacceptedv] at ht
    · exact absurd (hidle.symm.trans hseq) (by simp)
    · obtain rfl : k = k' := Phase.emit.inj (hseq.symm.trans hseq')
      obtain rfl : w = w' := Option.some.inj (hword.symm.trans hword')
      exact .inr ⟨1, _, run_succ_of_next hstep 0, rfl⟩
    · exact absurd (List.mem_of_mem_head? he) (hreset taken)

/-- R149: a fair sink takes the offered word, if no reset comes. -/
theorem exists_run_hasTaken {k : Nat} {s : State} {w : Word} (hwf : s.Wf) (hseq : s.seq = .emit k) (hword : s.word k = some w)
    (hreset : ∀ taken : Bool, .reset taken ∉ s.events) (hfair : s.SinkFair) :
    ∃ (m : Nat) (t : State), Host.Core.run Sys2Proof.core m s = .next t ∧ HasTaken s k w t := by
  obtain ⟨n, u, hrun, -, hu⟩ := hfair 0 s w rfl ((State.offered_emit hseq).trans hword)
  obtain hstays | htaken := run_stays_or_takes hseq hword hreset hrun
  · obtain ⟨hoffered, hready, hown⟩ | ⟨taken, he⟩ := hu
    · obtain ⟨hsequ, hringu, hcursoru, hacceptedu⟩ := State.progress_eq_iff.1 hstays
      obtain ⟨hNu, -⟩ := State.constants_eq_iff.1 (run_constants_eq hrun)
      have hwordu : u.word k = some w := (State.offered_emit (hsequ.trans hseq)).symm.trans hoffered
      have hstep := step_accept (run_keeps step_keeps_wf hrun hwf).ringSize_ne_zero (hsequ.trans hseq) hwordu hready hown
      refine ⟨n + 1, _, (run_add_of_next hrun).trans (run_succ_of_next hstep 0), ?_⟩
      rw [HasTaken, ← hNu, ← hringu, ← hcursoru, ← hacceptedu]
      rfl
    · exact absurd (List.mem_of_mem_head? he) (run_keeps step_keeps_noReset hrun hreset taken)
  · exact htaken

/-- R149: the words from position `k` on are accepted in order, however long the sink stalls before each. -/
theorem exists_run_transmission {d k : Nat} {s : State} (hwf : s.Wf) (hk : k + d = s.ringSize + 2)
    (hseq : s.seq = phaseAt s.ringSize k) (hreset : ∀ taken : Bool, .reset taken ∉ s.events) (hfair : s.SinkFair) :
    ∃ (m : Nat) (t : State) (words : List Word), Host.Core.run Sys2Proof.core m s = .next t ∧ t.seq = .idle ∧
      words.map some = (List.range' k d).map s.word ∧ t.accepted = s.accepted ++ words ∧ t.ring = s.ring ∧ t.cursor = s.cursor := by
  induction d generalizing k s with
  | zero =>
    obtain rfl : k = s.ringSize + 2 := hk
    exact ⟨0, s, [], rfl, hseq.trans (phaseAt_past_end _), rfl, (List.append_nil _).symm, rfl, rfl⟩
  | succ d ih =>
    have hle : k ≤ s.ringSize + 1 := by omega
    rw [phaseAt_of_le hle] at hseq
    obtain ⟨w, hword⟩ := hwf.word_isSome hle
    obtain ⟨m, u, hrun, hu⟩ := exists_run_hasTaken hwf hseq hword hreset hfair
    simp only [HasTaken, State.progress, Prod.mk.injEq] at hu
    obtain ⟨hsequ, hringu, hcursoru, hacceptedu⟩ := hu
    obtain ⟨hNu, -, -, -, hbriu⟩ := State.constants_eq_iff.1 (run_constants_eq hrun)
    have hku : k + 1 + d = u.ringSize + 2 := by omega
    have hphaseu : u.seq = phaseAt u.ringSize (k + 1) := by rw [hsequ, hNu, nextPhase_eq_phaseAt]
    obtain ⟨m', t, words, hrun', hidle, hwords, haccepted, hring, hcursor⟩ := ih (run_keeps step_keeps_wf hrun hwf) hku hphaseu
      (run_keeps step_keeps_noReset hrun hreset) (hfair.of_run hrun)
    refine ⟨m + m', t, w :: words, (run_add_of_next hrun).trans hrun', hidle, ?_, ?_, hring.trans hringu, hcursor.trans hcursoru⟩
    · rw [List.map_cons, hwords, State.word_congr hNu hringu hbriu, List.range'_succ, List.map_cons, hword]
    · rw [haccepted, hacceptedu, ← List.append_cons]

/-- Settles O60: a fair sink takes one word after the other, and a sink that the listed events leave ready is fair. -/
theorem fairSinkCompletesTheTick : Obligations.FairSinkCompletesTheTick := by
  refine ⟨fun s k hwf hseq hreset hfair => ?completes, fun s => State.sinkFair_of_sinkEndsReady⟩
  case completes =>
    have hle : k ≤ s.ringSize + 1 := hwf.phase_le hseq
    exact exists_run_transmission hwf (by omega) (hseq.trans (phaseAt_of_le hle).symm) hreset hfair

end Sys2Proof.Machine
end

section
/-! What START, LED and END can do (R109, R144, R151). -/

namespace Sys2Proof.Machine

/-- R151: each operation that presents a frame word does nothing, or has the offered word accepted. -/
theorem exec_frameWord_effect {i : Instr} (hi : i = .startWord ∨ i = .endWord ∨ ∃ bri b g r, i = .led bri b g r) (s : State) :
    ∃ t, exec i s = .next t ∧ FrameWordEffect s t := by
  obtain rfl | rfl | ⟨bri, b, g, r, rfl⟩ := hi
  · exact execStart_effect s
  · exact execEnd_effect s
  · exact execLed_effect bri b g r s

/-- R144: a sink that is not ready takes no word. -/
theorem FrameWordEffect.eq_of_not_ready {s t : State} (h : FrameWordEffect s t) (hready : s.frameReady = false) : t = s := by
  obtain hsame | ⟨k, w, -, -, htakes, -⟩ := h
  · exact hsame
  · exact absurd (htakes.symm.trans hready) (by decide)

/-- Settles O32: the effect of a frame word, with the next phase written out. -/
theorem onlyTheOfferedWordIsAccepted : Obligations.OnlyTheOfferedWordIsAccepted := by
  intro i s t hi h
  obtain ⟨t', ht', heffect⟩ := exec_frameWord_effect hi s
  obtain rfl := Host.Outcome.next.inj (h.symm.trans ht')
  obtain hsame | ⟨k, w, hseq, hoffered, hready, htaken⟩ := heffect
  · exact .inl hsame
  · exact .inr ⟨k, w, hseq, hready, hoffered, htaken⟩

/-- Settles O31: of the two effects of a frame word only the one that does nothing is left. -/
theorem frameWordsWaitForTheSink : Obligations.FrameWordsWaitForTheSink := by
  intro s hready
  have hholds {i : Instr} (hi : i = .startWord ∨ i = .endWord ∨ ∃ bri b g r, i = .led bri b g r) : exec i s = .next s := by
    obtain ⟨t, ht, heffect⟩ := exec_frameWord_effect hi s
    rw [ht, heffect.eq_of_not_ready hready]
  exact ⟨hholds (.inl rfl), fun bri b g r => hholds (.inr (.inr ⟨bri, b, g, r, rfl⟩)), hholds (.inr (.inl rfl))⟩

end Sys2Proof.Machine
end

section
/-! The words the sink has, and the word it is offered, over one step (R24, R141, R142, R151). -/

namespace Sys2Proof.Machine

theorem State.takenOnReset_of_not_ready {s : State} (h : s.frameReady = false) (taken : Bool) : s.takenOnReset taken = [] := by
  simp [State.takenOnReset, h]

/-- R163: a word that counts as accepted on the edge of a reset is the offered one, and the sink is ready. -/
theorem State.resetBlock_accepted_cases (s : State) (taken : Bool) :
    (s.resetBlock taken).accepted = s.accepted ∨
    ∃ w, s.offered = some w ∧ s.frameReady = true ∧ (s.resetBlock taken).accepted = s.accepted ++ [w] := by
  rw [State.resetBlock_accepted]
  cases hready : s.frameReady with
  | false => exact .inl (by rw [State.takenOnReset_of_not_ready hready, List.append_nil])
  | true =>
    obtain hnone | ⟨w, hoffered, hw⟩ := s.takenOnReset_cases taken
    · exact .inl (by rw [hnone, List.append_nil])
    · exact .inr ⟨w, hoffered, rfl, by rw [hw]⟩

/-- Settles O41: of the four kinds of step only an acceptance and a reset reach the sink's words. -/
theorem acceptedWordsAreTheOfferedOnes : Obligations.AcceptedWordsAreTheOfferedOnes := by
  intro s t h
  obtain hstays | ⟨-, -, rfl⟩ | ⟨k, w, hseq, hword, hready, -, rfl⟩ | ⟨taken, -, rfl⟩ := (step_effect h).2.progress_cases
  · obtain ⟨-, -, -, haccepted⟩ := State.progress_eq_iff.1 hstays
    exact .inl haccepted
  · exact .inl rfl
  · exact .inr ⟨w, (State.offered_emit hseq).trans hword, hready, rfl⟩
  · exact s.consumeEvent.resetBlock_accepted_cases taken

/-- R109: the sink's taking of a word is seen in its words. -/
theorem step_accepted_of_sinkTakes {s t : State} {w : Word} (htakes : s.SinkTakes w) (h : step s = .next t) :
    t.accepted = s.accepted ++ [w] := by
  obtain ⟨hoffered, hready, hown⟩ := htakes
  obtain ⟨k, hseq, hword⟩ := State.exists_phase_of_offered hoffered
  obtain rfl := Host.Outcome.next.inj ((step_accept (step_effect h).1 hseq hword hready hown).symm.trans h)
  rfl

/-- Settles O42: a step that leaves the sink's words did not take the offered one. -/
theorem offeredWordIsHeld : Obligations.OfferedWordIsHeld := by
  intro s t w hoffered hreset h haccepted
  have htakes : ¬ s.SinkTakes w := fun htakes => by
    have hgrown := step_accepted_of_sinkTakes htakes h
    simp [haccepted] at hgrown
  exact (step_keeps_offered hoffered htakes hreset h).symm

end Sys2Proof.Machine
end

section
/-! The moves of the host, the sink and the initialisation collaborator (R147, R148, R152, R167, R174). -/

namespace Sys2Proof.Machine

/-- A listed event is consumed and its move performed. -/
theorem step_of_event {s : State} {e : Event} {es : List Event} (hN : 1 ≤ s.ringSize) (h : s.events = e :: es) :
    step s = perform (s.eventMove e) { s with events := es } := by
  have hhead : s.events.head? = some e := by rw [h, List.head?_cons]
  rw [step, if_neg (Nat.ne_of_gt hN), State.nextMove_of_head hhead, State.consumeEvent, h, List.tail_cons]

theorem step_initialise {s : State} {ok : Bool} {es : List Event} (hN : 1 ≤ s.ringSize) (h : s.events = .initialise ok :: es) :
    step s = .next (State.endInit { s with events := es } ok) :=
  step_of_event hN h

/-- Settles O44: the move of each of the three events, the last by whether initialisation was pending. -/
theorem otherMovesLeaveTheBlock : Obligations.OtherMovesLeaveTheBlock := by
  refine fun s es hN => ⟨fun ms h => step_of_event hN h, fun ready h => step_of_event hN h, fun ok h hpending => ?pending,
    fun ok h hended => ?ended⟩
  case pending => rw [step_initialise hN h, State.endInit_of_pending (s := { s with events := es }) hpending]
  case ended => rw [step_initialise hN h, State.endInit_of_ended (s := { s with events := es }) hended]

end Sys2Proof.Machine
end

section
/-! A sink that is never ready (R144, R189). -/

namespace Sys2Proof.Machine

/-- A word is offered to a sink that is not ready, and no listed event makes it ready or resets the block. -/
def State.Stalled (s : State) : Prop :=
  s.seq ≠ .idle ∧ s.frameReady = false ∧ ∀ e ∈ s.events, e ≠ .sinkReady true ∧ ∀ taken : Bool, e ≠ .reset taken

/-! What a step keeps of it. -/

/-- R152: only the sink raises `frame_ready`. -/
theorem step_keeps_not_ready {s t : State} (h : step s = .next t) (hraise : s.events.head? ≠ some (.sinkReady true))
    (hs : s.frameReady = false) : t.frameReady = false := by
  obtain ⟨hN, heffect⟩ := step_effect h
  by_cases hlow : s.events.head? = some (.sinkReady false)
  · obtain rfl := Host.Outcome.next.inj ((step_sinkReady hN hlow).symm.trans h)
    rfl
  · have hdrive : ∀ ready : Bool, s.events.head? ≠ some (.sinkReady ready) := Bool.forall_bool.2 ⟨hlow, hraise⟩
    exact (heffect.frameReady_eq hdrive).trans hs

/-- R144: without the sink and without a reset nothing moves the block. -/
theorem State.Stalled.step_progress_eq {s t : State} (hs : s.Stalled) (h : step s = .next t) : t.progress = s.progress := by
  obtain ⟨hbusy, hready, hlisted⟩ := hs
  obtain hstays | ⟨hidle, -⟩ | ⟨k, w, -, -, htakes, -⟩ | ⟨taken, hreset, -⟩ := (step_effect h).2.progress_cases
  · exact hstays
  · exact absurd hidle hbusy
  · exact absurd (htakes.symm.trans hready) (by decide)
  · exact absurd rfl ((hlisted _ (List.mem_of_mem_head? hreset)).2 taken)

theorem step_keeps_stalled {s t : State} (h : step s = .next t) (hs : s.Stalled) : t.Stalled := by
  obtain ⟨hseq, -⟩ := State.progress_eq_iff.1 (hs.step_progress_eq h)
  obtain ⟨hbusy, hready, hlisted⟩ := hs
  have hraise : s.events.head? ≠ some (.sinkReady true) := fun hhead => (hlisted _ (List.mem_of_mem_head? hhead)).1 rfl
  refine ⟨hseq ▸ hbusy, step_keeps_not_ready h hraise hready, fun e he => hlisted e ?_⟩
  rw [step_events h] at he
  exact List.mem_of_mem_tail he

/-- R189: however many steps are taken, the block is where it was. -/
theorem State.Stalled.run_progress_eq {m : Nat} {s t : State} (hs : s.Stalled) (h : Host.Core.run Sys2Proof.core m s = .next t) :
    t.progress = s.progress := by
  obtain ⟨-, hprogress⟩ := run_keeps (P := fun u => u.Stalled ∧ u.progress = s.progress)
    (fun hstep ⟨hu, hprogress⟩ => ⟨step_keeps_stalled hstep hu, (hu.step_progress_eq hstep).trans hprogress⟩) h ⟨hs, rfl⟩
  exact hprogress

/-- R24: the offered word is a function of the phase, the ring and the constants. -/
theorem State.offered_congr {s t : State} (hseq : t.seq = s.seq) (hring : t.ring = s.ring) (h : t.constants = s.constants) :
    t.offered = s.offered := by
  obtain ⟨hN, -, -, -, hbri⟩ := State.constants_eq_iff.1 h
  rw [State.offered, State.offered, hseq, State.word_congr hN hring hbri]

/-! Such a run is not stopped. -/

theorem State.Stalled.blockMove_eq_hold {s : State} (hs : s.Stalled) : s.blockMove = .hold := by
  obtain ⟨hbusy, hready, -⟩ := hs
  cases hseq : s.seq with
  | idle => exact absurd hseq hbusy
  | emit k => simp [State.blockMove, hseq, hready]

/-- Once initialisation has succeeded an event whose move is not the block's own is never refused (R8, R186). -/
theorem exists_perform_eventMove {s u : State} {e : Event} (hN : u.ringSize ≠ 0) (hinit : s.init = .succeeded) (he : e ≠ .advance) :
    ∃ t, perform (s.eventMove e) u = .next t := by
  cases e with
  | advance => exact absurd rfl he
  | requestTick =>
    rw [State.eventMove, if_pos hinit]
    exact exists_execTick hN
  | driveEncoder w => exact ⟨_, by rw [State.eventMove, perform, decode_encoderPort_wordBytes]; rfl⟩
  | sinkReady ready => exact ⟨_, rfl⟩
  | reset taken => exact ⟨_, rfl⟩
  | initialise ok => exact ⟨_, rfl⟩
  | wait ms => exact ⟨_, rfl⟩

/-- R109: at its own move a stalled block holds. -/
theorem State.Stalled.step_of_own_move {s : State} (hs : s.Stalled) (hN : 1 ≤ s.ringSize)
    (hown : s.events.head? = none ∨ s.events.head? = some .advance) : step s = .next s.consumeEvent := by
  rw [step, if_neg (Nat.ne_of_gt hN), State.nextMove_of_advance hown, hs.blockMove_eq_hold, perform]

theorem State.Stalled.exists_step {s : State} (hs : s.Stalled) (hN : 1 ≤ s.ringSize) (hinit : s.init = .succeeded) :
    ∃ t, step s = .next t := by
  cases hevents : s.events with
  | nil => exact ⟨_, hs.step_of_own_move hN (.inl (by rw [hevents]; rfl))⟩
  | cons e es =>
    by_cases he : e = .advance
    · exact ⟨_, hs.step_of_own_move hN (.inr (by rw [hevents, he]; rfl))⟩
    · rw [step_of_event hN hevents]
      exact exists_perform_eventMove (u := { s with events := es }) (Nat.ne_of_gt hN) hinit he

/-- Initialisation that has succeeded stays so: with a word offered, R186 leaves nothing else. -/
theorem State.Stalled.step_keeps_init {s t : State} (hs : s.Stalled) (hinit : s.init = .succeeded) (h : step s = .next t) :
    t.init = .succeeded := by
  obtain hdone | ⟨hidle, -⟩ := step_keeps_initFirst h (.inl hinit)
  · exact hdone
  · exact absurd hidle (step_keeps_stalled h hs).1

/-- R189: once initialisation has succeeded, a stalled run goes on for any number of steps. -/
theorem State.Stalled.exists_run {s : State} (hs : s.Stalled) (hN : 1 ≤ s.ringSize) (hinit : s.init = .succeeded) (m : Nat) :
    ∃ t, Host.Core.run Sys2Proof.core m s = .next t := by
  induction m generalizing s with
  | zero => exact ⟨s, rfl⟩
  | succ m ih =>
    obtain ⟨u, hstep⟩ := hs.exists_step hN hinit
    obtain ⟨hNu, -⟩ := State.constants_eq_iff.1 (step_constants_eq hstep)
    rw [run_succ_of_next hstep]
    exact ih (step_keeps_stalled hstep hs) (hNu ▸ hN) (hs.step_keeps_init hinit hstep)

/-- With no event listed there is none to consume. -/
theorem State.consumeEvent_of_nil {s : State} (h : s.events = []) : s.consumeEvent = s := by
  cases s; cases h; rfl

/-- Settles O43: the block is stalled, and a stalled block stays where it is. -/
theorem sinkThatNeverAcceptsHoldsTheBlock : Obligations.SinkThatNeverAcceptsHoldsTheBlock := by
  intro s k hN hseq hready hlisted
  have hs : s.Stalled := ⟨by simp [hseq], hready, hlisted⟩
  refine ⟨fun m t h => ?stays, hs.exists_run hN, fun hnil m => ?unchanged⟩
  case stays =>
    obtain ⟨hseqt, hring, hcursor, haccepted⟩ := State.progress_eq_iff.1 (hs.run_progress_eq h)
    exact ⟨hseqt.trans hseq, hring, hcursor, State.offered_congr hseqt hring (run_constants_eq h), haccepted⟩
  case unchanged =>
    have hstep := hs.step_of_own_move hN (.inl (by rw [hnil]; rfl))
    rw [State.consumeEvent_of_nil hnil] at hstep
    exact run_of_step_self hstep m

end Sys2Proof.Machine
end

section
/-! Which steps stop (R160, R8, R186). -/

namespace Sys2Proof.Machine

/-- R8: without a slot there is no index to take. -/
theorem step_emptyRing {s : State} (h : s.ringSize = 0) : step s = .refused .emptyRing := if_pos h

/-- R186: the launch that the spec says nothing of. -/
theorem step_earlyTick {s : State} (hN : s.ringSize ≠ 0) (hhead : s.events.head? = some .requestTick) (hinit : s.init ≠ .succeeded) :
    step s = .refused .tickBeforeInitialisation := by
  rw [step, if_neg hN, State.nextMove_of_head hhead, State.eventMove, if_neg hinit, perform]

/-- Only the move of a request reads the initialisation status (R186). -/
theorem State.eventMove_setInit (s : State) (init : InitStatus) {e : Event} (he : e ≠ .requestTick) :
    State.eventMove { s with init := init } e = s.eventMove e := by
  cases e with
  | requestTick => exact absurd rfl he
  | advance => rfl
  | driveEncoder w => rfl
  | sinkReady ready => rfl
  | reset taken => rfl
  | initialise ok => rfl
  | wait ms => rfl

/-- Whatever the initialisation status, a step that takes no request goes on in a state that meets R31. -/
theorem exists_step_of_no_request {s : State} (h : s.Wf) (hother : s.events.head? ≠ some .requestTick) : ∃ t, step s = .next t := by
  by_cases hown : s.events.head? = none ∨ s.events.head? = some .advance
  · rw [step, if_neg h.ringSize_ne_zero, State.nextMove_of_advance hown]
    exact exists_perform_blockMove h
  · obtain ⟨hlisted, hadvance⟩ := not_or.1 hown
    obtain ⟨e, hhead⟩ := Option.ne_none_iff_exists'.1 hlisted
    have he : e ≠ .requestTick := fun heq => hother (heq ▸ hhead)
    rw [step, if_neg h.ringSize_ne_zero, State.nextMove_of_head hhead, ← s.eventMove_setInit .succeeded he]
    exact exists_perform_eventMove (u := s.consumeEvent) h.ringSize_ne_zero rfl (fun heq => hadvance (heq ▸ hhead))

/-- In a state that meets R31 the early launch is the only step that stops. -/
theorem exists_step_of_no_earlyTick {s : State} (h : s.Wf) (hearly : ¬ (s.events.head? = some .requestTick ∧ s.init ≠ .succeeded)) :
    ∃ t, step s = .next t := by
  by_cases hinit : s.init = .succeeded
  · exact exists_step h hinit
  · exact exists_step_of_no_request h (fun hhead => hearly ⟨hhead, hinit⟩)

theorem step_refused_iff {s : State} (h : s.Wf) (reason : Refusal) : step s = .refused reason ↔
    (reason = .tickBeforeInitialisation ∧ s.events.head? = some .requestTick ∧ s.init ≠ .succeeded) := by
  constructor
  · intro hrefused
    by_cases hearly : s.events.head? = some .requestTick ∧ s.init ≠ .succeeded
    · obtain ⟨hhead, hinit⟩ := hearly
      have hstep := step_earlyTick h.ringSize_ne_zero hhead hinit
      exact ⟨Host.Outcome.refused.inj (hrefused.symm.trans hstep), hhead, hinit⟩
    · obtain ⟨t, hstep⟩ := exists_step_of_no_earlyTick h hearly
      exact absurd (hrefused.symm.trans hstep) (by simp)
  · rintro ⟨rfl, hhead, hinit⟩
    exact step_earlyTick h.ringSize_ne_zero hhead hinit

/-- Settles O45: no value of `Fault` exists, and the early launch is the one refusal of a state that meets R31. -/
theorem stepStopsOnlyThere : Obligations.StepStopsOnlyThere :=
  ⟨fun _ f => (nomatch f), fun _ h reason => step_refused_iff h reason, fun _ h => step_emptyRing h⟩

end Sys2Proof.Machine
end

section
/-! Before initialisation has succeeded (R147, R167, R186). -/

namespace Sys2Proof.Machine

/-- Settles O54: no effect of a step in IDLE without a request begins a tick or has a word accepted, and initialisation that has succeeded stays so. -/
theorem nothingBeforeInitialisation : Obligations.NothingBeforeInitialisation :=
  fun _ _ hs h => step_keeps_initFirst h hs

end Sys2Proof.Machine
end

section
/-! The move of a reset (R33, R163, R180, R181). -/

namespace Sys2Proof.Machine

/-- R163: a word that a ready sink is offered on the edge of a reset counts or not, as `taken` says. -/
theorem State.takenOnReset_of_offered {s : State} {w : Word} (hoffered : s.offered = some w) (hready : s.frameReady = true) (taken : Bool) :
    s.takenOnReset taken = if taken then [w] else [] := by
  simp [State.takenOnReset, hoffered, hready]

theorem State.takenOnReset_of_not_offered {s : State} (h : s.offered = none) (taken : Bool) : s.takenOnReset taken = [] := by
  simp [State.takenOnReset, h]

/-- R163, R181: without a word that the sink is taking on that edge, the accepted words stay as they are. -/
theorem State.resetBlock_accepted_of_no_taking {s : State} (h : s.offered = none ∨ s.frameReady = false) (taken : Bool) :
    (s.resetBlock taken).accepted = s.accepted := by
  have hnothing : s.takenOnReset taken = [] :=
    h.elim (State.takenOnReset_of_not_offered · taken) (State.takenOnReset_of_not_ready · taken)
  rw [State.resetBlock_accepted, hnothing, List.append_nil]

theorem State.resetBlock_accepted_of_taking {s : State} {w : Word} (hoffered : s.offered = some w) (hready : s.frameReady = true)
    (taken : Bool) : (s.resetBlock taken).accepted = if taken then s.accepted ++ [w] else s.accepted := by
  rw [State.resetBlock_accepted, State.takenOnReset_of_offered hoffered hready]
  cases taken with
  | true => rfl
  | false => exact List.append_nil _

theorem step_reset {s : State} {taken : Bool} {es : List Event} (hN : 1 ≤ s.ringSize) (h : s.events = .reset taken :: es) :
    step s = .next (State.resetBlock { s with events := es } taken) :=
  step_of_event hN h

/-- Settles O46: the event is consumed and the block reset, in IDLE with a ring of N drawn slots; the accepted words by whether the sink was
taking one. -/
theorem resetLeavesTheResetState : Obligations.ResetLeavesTheResetState := by
  intro s taken es hN h
  exact ⟨State.resetBlock { s with events := es } taken, step_reset hN h, rfl, length_drawnRing _ _, State.offered_idle rfl, rfl, rfl,
    fun _ hoffered hready => State.resetBlock_accepted_of_taking (s := { s with events := es }) hoffered hready taken,
    fun hnoTaking => State.resetBlock_accepted_of_no_taking (s := { s with events := es }) hnoTaking taken⟩

end Sys2Proof.Machine
end

section
/-! The reset state: its configuration (R10) and the invariants it meets (R31, R48, R67, R186). -/

namespace Sys2Proof.Machine

/-- R67: no word at all is no transmission and the start of one, with nothing cut short. -/
theorem followsGrammar_nil (n cuts : Nat) : FollowsGrammar n cuts [] 0 :=
  ⟨[], [], rfl, fun _ ht => absurd ht List.not_mem_nil, Nat.zero_le _, transmissionStart_nil n, rfl⟩

/-- R147, R186: the machine comes out of reset in IDLE, with no request held and no word accepted. -/
theorem State.reset_initFirst : State.reset.InitFirst := .inr ⟨rfl, rfl, rfl⟩

theorem State.reset_sentSoFar : State.reset.SentSoFar :=
  State.sentSoFar_of_sentCount_eq_zero (State.sentCount_of_idle rfl)

theorem State.reset_streamOk : State.reset.StreamOk :=
  (State.streamOk_iff _).2 (followsGrammar_nil _ _)

/-- Settles O48: the four constants of the reset state are those of `Config`, which are written out. -/
theorem resetHasTheReferenceConfiguration : Obligations.ResetHasTheReferenceConfiguration :=
  ⟨rfl, rfl, rfl, rfl⟩

/-- Settles O49: the drawn ring has N slots, and nothing has been requested, sent or accepted. -/
theorem resetMeetsTheInvariants : Obligations.ResetMeetsTheInvariants :=
  ⟨State.reset_wf, State.reset_initFirst, State.reset_sentSoFar, State.reset_streamOk⟩

end Sys2Proof.Machine
end
